-- ==== Sys2Proof/Word.lean ====
section
/-! DEFINITION. The word types of the MTPS block (spec 00_scope.md R9, R11): only what the spec treats as bits. -/

namespace Sys2Proof

/-- A byte of the message buffer, of a byte lane, of the wire packet (R11, R24). -/
abbrev Byte := BitVec 8

/-- A 32-bit value: `u32`, `s32` and the opaque `f32` pattern (R11, R146). -/
abbrev Word := BitVec 32

/-- `IDX_W` = 10 bits: `idx` and `msg_len` (R9, R20). -/
abbrev Index := BitVec 10

/-- `DATA_W` = 160 bits: the data ports, twenty byte lanes (R9, R67). -/
abbrev Lanes := BitVec 160

end Sys2Proof
end

