-- ==== Sys2Proof/Config.lean ====
section
/-! DEFINITION. The constants of the hardware (spec 00_scope.md R8; decision D32: fixed, with exactly these values) and the
free values: what the spec leaves open, as opaque constants that no proof can evaluate. -/

namespace Sys2Proof.Config

/-- `CAP`: capacity of the message buffer in bytes (R8). -/
def cap : Nat := 512

/-- `END`: the end-of-message marker, in stream order (R8, R74). -/
def endMarker : List Byte := [0x1B, 0x1B, 0x1B, 0x1B, 0x1A]

/-- `N_END` (R8). -/
def endLen : Nat := 5

/-- `START`: the start-of-message marker, in stream order (R8, R74). -/
def startMarker : List Byte := [0x1B, 0x1B, 0x1B, 0x1B, 0x01, 0x01, 0x01, 0x01]

/-- `N_START` (R8). -/
def startLen : Nat := 8

/-- `ID_POWER`: the field identifier of instantaneous power (R8). -/
def idPower : List Byte := [0x01, 0x00, 0x10, 0x07, 0x00]

/-- `ID_CONS`: the field identifier of total consumption (R8). -/
def idCons : List Byte := [0x01, 0x00, 0x01, 0x08, 0x00]

/-- `ID_GEN`: the field identifier of total generation (R8). -/
def idGen : List Byte := [0x01, 0x00, 0x02, 0x08, 0x00]

/-- `N_ID`: the length of a field identifier (R8). -/
def idLen : Nat := 5

/-- `VLEN_MAX`: the largest value byte count (R8). -/
def vlenMax : Nat := 4

/-- `SEARCH_ROOM`: the search stops at `length − 10` (R8, R111). -/
def searchRoom : Nat := 10

/-- `PKT_LEN`: bytes in a wire packet (R8). -/
def pktLen : Nat := 20

/-- FREE VALUE: what a byte of the message buffer that was not written since reset reads as (R32, R98, U6: "any value (a
draw per read, not assumed equal between two reads)"). The first argument is the draw counter of the step, the second the
buffer index: within one command a byte has one value (R47), in another command it may have another. Log entry 1. -/
opaque unwrittenByte : Nat → Nat → Byte

/-- FREE VALUE: the number of clock edges beyond the first that a command takes before its response is presented, by the draw
counter of the step that accepted it (R61, R240: "a finite number of clock cycles, at least one", not specified further).
Log entry 2. -/
opaque latency : Nat → Nat

end Sys2Proof.Config
end

