-- ==== Sys2Proof/Syntax.lean ====
section
/-! DEFINITION. The commands of the block: one constructor per row of spec/opcode_table.json (spec 30_encoding.md R63), each
with the operands that R68 names. -/

namespace Sys2Proof

/-- A command, its operands read off the ports (R63, R68). The five reserved opcodes are commands too: each is answered
(R66, R181). -/
inductive Instr where
  /-- `NOP`, opcode `0x0` (R180). -/
  | nop
  /-- `FA_FEED byte`, opcode `0x1` (R91). -/
  | faFeed (byte : Byte)
  /-- `FA_RESET`, opcode `0x2` (R97). -/
  | faReset
  /-- `FA_READ addr`, opcode `0x3`, a 9-bit index (R98). -/
  | faRead (addr : BitVec 9)
  /-- `DEC_POWER`, opcode `0x4` (R117). -/
  | decPower
  /-- `DEC_CONS`, opcode `0x5` (R118). -/
  | decCons
  /-- `DEC_GEN`, opcode `0x6` (R119). -/
  | decGen
  /-- `PKT_ENCODE power, cons, gen, batt, counter`, opcode `0x7` (R141). -/
  | pktEncode (power cons gen batt counter : Word)
  /-- `PKT_DECODE n, p`, opcode `0x8`: `p` holds the first `min(n, 20)` received bytes (R68, R142). -/
  | pktDecode (n : Byte) (p : List Byte)
  /-- `SEQ_OBSERVE counter`, opcode `0x9` (R161). -/
  | seqObserve (counter : Word)
  /-- `SEQ_RESET`, opcode `0xA` (R167). -/
  | seqReset
  /-- Reserved opcode `0xB` (R181). -/
  | reservedB
  /-- Reserved opcode `0xC` (R181). -/
  | reservedC
  /-- Reserved opcode `0xD` (R181). -/
  | reservedD
  /-- Reserved opcode `0xE` (R181). -/
  | reservedE
  /-- Reserved opcode `0xF` (R181). -/
  | reservedF
  deriving DecidableEq, Repr

end Sys2Proof
end

