-- ==== Sys2Proof/WellFormed.lean ====
section
/-! DEFINITION. Which terms of `Instr` are commands of the hardware: the one operand whose Lean type is wider than the spec's
is the byte sequence of `PKT_DECODE` (spec 30_encoding.md R68). -/

namespace Sys2Proof

/-- `p` of `PKT_DECODE` holds exactly the first `min(n, 20)` received bytes (R68). -/
def receivedLengthOk (n : Byte) (p : List Byte) : Bool :=
  p.length == min n.toNat Config.pktLen

/-- The well-formed commands. Every operand of the other commands has exactly the width the spec gives it. -/
def Instr.wellFormed : Instr → Bool
  | .nop => true
  | .faFeed _ => true
  | .faReset => true
  | .faRead _ => true
  | .decPower => true
  | .decCons => true
  | .decGen => true
  | .pktEncode _ _ _ _ _ => true
  | .pktDecode n p => receivedLengthOk n p
  | .seqObserve _ => true
  | .seqReset => true
  | .reservedB => true
  | .reservedC => true
  | .reservedD => true
  | .reservedE => true
  | .reservedF => true

end Sys2Proof
end

