-- ==== Sys2Proof/Decode.lean ====
section
/-! DEFINITION. From the command ports to a command and back (spec 30_encoding.md R62, R63, R67, R68): the command triple, the
byte lanes, the opcode map, the operand placement, the decoder, the encoder written from the same tables, the numbering of a
command's bits as one word, the pseudo-commands of R78 and the command syntax of R77. -/

namespace Sys2Proof

/-- A command as sampled at acceptance: the triple (`cmd_op`, `cmd_len`, `cmd_data`) (R62). -/
structure Command where
  op : BitVec 4
  len : Byte
  data : Lanes
  deriving DecidableEq, Repr

/-- Byte lane `k`: bits `[8k+7 : 8k]` (R67). -/
def lane (d : Lanes) (k : Nat) : Byte :=
  d.extractLsb' (8 * k) 8

/-- The first `n` byte lanes, lane 0 first (R67). -/
def lanes (d : Lanes) (n : Nat) : List Byte :=
  (List.range n).map (lane d)

/-- The number whose byte `k`, from the least significant, is byte `k` of the sequence (R67). -/
def lanesNat : List Byte → Nat
  | [] => 0
  | b :: bs => b.toNat + 256 * lanesNat bs

/-- A byte sequence of up to 20 bytes on a data port: byte `k` in bits `[8k+7 : 8k]`, the other lanes 0 (R64, R67). -/
def ofLanes (p : List Byte) : Lanes :=
  BitVec.ofNat 160 (lanesNat p)

/-- The opcode map (R63, R66). -/
def Instr.opcode : Instr → BitVec 4
  | .nop => 0x0
  | .faFeed _ => 0x1
  | .faReset => 0x2
  | .faRead _ => 0x3
  | .decPower => 0x4
  | .decCons => 0x5
  | .decGen => 0x6
  | .pktEncode _ _ _ _ _ => 0x7
  | .pktDecode _ _ => 0x8
  | .seqObserve _ => 0x9
  | .seqReset => 0xA
  | .reservedB => 0xB
  | .reservedC => 0xC
  | .reservedD => 0xD
  | .reservedE => 0xE
  | .reservedF => 0xF

/-- The five operands of `PKT_ENCODE`, each 32 bits in the position of its packet field (R68). -/
def decodePktEncode (d : Lanes) : Instr :=
  .pktEncode (d.extractLsb' 0 32) (d.extractLsb' 32 32) (d.extractLsb' 64 32) (d.extractLsb' 96 32)
    (d.extractLsb' 128 32)

/-- The operands of `PKT_DECODE`: `n` is `cmd_len`, `p` the first `min(n, 20)` byte lanes (R68). -/
def decodePktDecode (len : Byte) (d : Lanes) : Instr :=
  .pktDecode len (lanes d (min len.toNat Config.pktLen))

/-- The decoder. `cmd_op` alone selects the command; bits that the command does not name are ignored (R62, R63, R68).
It is total: each of the sixteen opcodes has its own arm, and the last arm can only be met by `0xF`. -/
def decode (c : Command) : Instr :=
  match c.op.toNat with
  | 0x0 => .nop
  | 0x1 => .faFeed (c.data.extractLsb' 0 8)
  | 0x2 => .faReset
  | 0x3 => .faRead (c.data.extractLsb' 0 9)
  | 0x4 => .decPower
  | 0x5 => .decCons
  | 0x6 => .decGen
  | 0x7 => decodePktEncode c.data
  | 0x8 => decodePktDecode c.len c.data
  | 0x9 => .seqObserve (c.data.extractLsb' 0 32)
  | 0xA => .seqReset
  | 0xB => .reservedB
  | 0xC => .reservedC
  | 0xD => .reservedD
  | 0xE => .reservedE
  | _ => .reservedF

/-- `cmd_len` of an encoded command: only `PKT_DECODE` names it (R68), ignored bits are written 0 (R77). -/
def Instr.lenPort : Instr → Byte
  | .nop => 0
  | .faFeed _ => 0
  | .faReset => 0
  | .faRead _ => 0
  | .decPower => 0
  | .decCons => 0
  | .decGen => 0
  | .pktEncode _ _ _ _ _ => 0
  | .pktDecode n _ => n
  | .seqObserve _ => 0
  | .seqReset => 0
  | .reservedB => 0
  | .reservedC => 0
  | .reservedD => 0
  | .reservedE => 0
  | .reservedF => 0

/-- `cmd_data` of an encoded command (R68), ignored bits written 0 (R77). -/
def Instr.dataPort : Instr → Lanes
  | .nop => 0
  | .faFeed b => b.setWidth 160
  | .faReset => 0
  | .faRead a => a.setWidth 160
  | .decPower => 0
  | .decCons => 0
  | .decGen => 0
  | .pktEncode power cons gen batt counter => counter ++ batt ++ gen ++ cons ++ power
  | .pktDecode _ p => ofLanes p
  | .seqObserve c => c.setWidth 160
  | .seqReset => 0
  | .reservedB => 0
  | .reservedC => 0
  | .reservedD => 0
  | .reservedE => 0
  | .reservedF => 0

/-- The encoder: the port values that present a command (R63, R68, R77). -/
def encode (i : Instr) : Command :=
  { op := i.opcode, len := i.lenPort, data := i.dataPort }

/-! ## A command as one word

The spec gives a command as a triple of ports and no order of its bits in a word. The model numbers them `{cmd_data, cmd_len,
cmd_op}`, `cmd_op` in bits 3..0 as the opcode table numbers it (log entry 3, DESIGN CHOICE). -/

/-- Width of a command: 4 + 8 + 160 bits (R62). -/
def commandBits : Nat := 172

/-- The command whose bits, `cmd_op` lowest, then `cmd_len`, then `cmd_data`, are those of `w`. -/
def Command.ofWord (w : Nat) : Command :=
  { op := BitVec.ofNat 4 w, len := BitVec.ofNat 8 (w / 2 ^ 4), data := BitVec.ofNat 160 (w / 2 ^ 12) }

/-- The word of a command, inverse to `Command.ofWord` below 2^172. -/
def Command.toWord (c : Command) : Nat :=
  c.op.toNat + 2 ^ 4 * c.len.toNat + 2 ^ 12 * c.data.toNat

/-- Why a word is no command. The sixteen opcodes are all commands, so nothing else is rejected. -/
inductive DecodeError where
  /-- fewer bits than `cmd_op` has; raised by `decodeWord`; safe -/
  | noOpcode
  /-- more bits than the three command ports have; raised by `decodeWord`; safe -/
  | tooManyBits
  deriving DecidableEq, Repr

/-- The decoder on any word of any length, rejecting by name. -/
def decodeWord (nbits w : Nat) : Except DecodeError Instr :=
  if nbits < 4 then .error .noOpcode
  else if 2 ^ commandBits ≤ w then .error .tooManyBits
  else .ok (decode (Command.ofWord w))

/-- The command in the low `nbits` bits of `w`, every bit above them 0. -/
def tableCommand (nbits w : Nat) : Command :=
  Command.ofWord (w % 2 ^ nbits)

/-- The instruction the decoder reads from a word of the opcode table. -/
def decodeTableWord (nbits w : Nat) : Option Instr :=
  (decodeWord nbits (w % 2 ^ nbits)).toOption

/-! ## Pseudo-commands (R78) -/

/-- `FA_FEEDS b0 b1 ...`: `FA_FEED b0`, `FA_FEED b1`, ... in order (R78). -/
def feeds (bs : List Byte) : List Instr :=
  bs.map .faFeed

/-- `DEC_ALL`: `DEC_POWER`, `DEC_CONS`, `DEC_GEN` in that order (R78). -/
def decAll : List Instr :=
  [.decPower, .decCons, .decGen]

/-- `PKT_DECODE p=...` with `n` omitted: `n` is the number of bytes written (R78), of which the port carries the first twenty
(R68). MODEL'S CHOICE (log entry 12): a line with more than 255 bytes, for which R68 has no `n`, stands for no command. -/
def pktDecodeAll (p : List Byte) : Option Instr :=
  if p.length ≤ 255 then some (.pktDecode (BitVec.ofNat 8 p.length) (p.take Config.pktLen)) else none

/-! ## Assembler syntax (R77) -/

/-- One hexadecimal digit, in capitals as R77 writes them. -/
def hexDigit (n : Nat) : Char :=
  ['0', '1', '2', '3', '4', '5', '6', '7', '8', '9', 'A', 'B', 'C', 'D', 'E', 'F'].getD n '0'

/-- The lowest `width` hexadecimal digits of a number, the most significant first. -/
def hexChars (width n : Nat) : List Char :=
  (List.range width).reverse.map fun i => hexDigit (n / 16 ^ i % 16)

/-- A number of `width` hexadecimal digits with its leading zeros dropped, but for the last digit. -/
def hexShortChars (width n : Nat) : List Char :=
  match (hexChars width n).dropWhile (· == '0') with
  | [] => ['0']
  | c :: cs => c :: cs

/-- Bytes in wire order, two digits each (R11, R77). -/
def bytesText (p : List Byte) : String :=
  " ".intercalate (p.map fun b => String.ofList (hexChars 2 b.toNat))

/-- `0x` and the digits (R77). -/
def hexText (width n : Nat) : String :=
  "0x" ++ String.ofList (hexChars width n)

/-- The encoding of a command written `op/len/data`, leading zeros of `data` dropped (R77). -/
def encodingText (c : Command) : String :=
  String.ofList (hexChars 1 c.op.toNat) ++ "/" ++ String.ofList (hexChars 2 c.len.toNat) ++ "/" ++
    String.ofList (hexShortChars 40 c.data.toNat)

/-- A command as a line of the command syntax (R77). R77 gives a reserved opcode no form, so it is written by its encoding. -/
def Instr.asmText : Instr → String
  | .nop => "NOP"
  | .faFeed b => "FA_FEED " ++ hexText 2 b.toNat
  | .faReset => "FA_RESET"
  | .faRead a => "FA_READ " ++ toString a.toNat
  | .decPower => "DEC_POWER"
  | .decCons => "DEC_CONS"
  | .decGen => "DEC_GEN"
  | .pktEncode power cons gen batt counter =>
    "PKT_ENCODE power=" ++ hexText 8 power.toNat ++ ", cons=" ++ hexText 8 cons.toNat ++ ", gen=" ++ hexText 8 gen.toNat ++
      ", batt=" ++ hexText 8 batt.toNat ++ ", counter=" ++ toString counter.toNat
  | .pktDecode n p => "PKT_DECODE n=" ++ toString n.toNat ++ ", p=" ++ bytesText p
  | .seqObserve c => "SEQ_OBSERVE " ++ toString c.toNat
  | .seqReset => "SEQ_RESET"
  | .reservedB => encodingText (encode .reservedB)
  | .reservedC => encodingText (encode .reservedC)
  | .reservedD => encodingText (encode .reservedD)
  | .reservedE => encodingText (encode .reservedE)
  | .reservedF => encodingText (encode .reservedF)

end Sys2Proof
end

