-- ==== Sys2Proof/Machine/State.lean ====
section
/-! DEFINITION. The state of the block (spec 10_state.md R20 to R32), the response it holds (30_encoding.md R61, R64, R65), the
host's port values, the reasons for a stop, and the state after reset. -/

namespace Sys2Proof.Machine

/-- The statuses other than `OK` (R65, R191). -/
inductive FailStatus where
  /-- code 1, by `PKT_DECODE` (R193) -/
  | lengthMismatch
  /-- code 2, by the decode commands (R194) -/
  | decLenInvalid
  /-- code 3, by the reserved opcodes (R195) -/
  | illegalCmd
  deriving DecidableEq, Repr

/-- A response (R64). One that is not `OK` carries no data: "A model should give a non-OK response no data at all". What the
ports show of it is `Response.status`, `Response.flag` and `Response.data` of Machine/Operands.lean. -/
inductive Response where
  | ok (flag : BitVec 2) (data : Lanes)
  | fail (status : FailStatus)
  deriving DecidableEq, Repr

/-- The input ports at one rising edge of `clk` (R60). -/
structure PortIn where
  rst : Bool
  cmdValid : Bool
  cmd : Command
  rspReady : Bool
  deriving DecidableEq, Repr

/-- The message buffer as the bytes written since reset, by index, in strictly rising order (R24, R32). An index that is not
listed holds an unspecified byte. -/
abbrev Memory := List Host.Cell

/-- The canonical form: indices strictly rising, every index inside the address space 0..511 (R40). No byte equals what an
unlisted index reads as, since that is no fixed value. -/
abbrev Memory.wf (m : Memory) : Prop :=
  m.Pairwise (fun c d => c.1 < d.1) ∧ ∀ c ∈ m, c.1 < Config.cap

/-- Why the machine stops. No command of the block stops it in any state it can reach (R190: "none is fatal"). -/
inductive Fault where
  /-- An access to `buf[first .. first+count−1]` that leaves the buffer, where `MemRead` and `MemWrite` are not defined (R13,
  R40). Raised by the decode commands when `msg_len` exceeds 512, which R20 rules out; safe (log entry 4). -/
  | outsideBuffer (first count : Nat)
  deriving DecidableEq, Repr

/-- Why the model gives a command no meaning. -/
inductive Refusal where
  /-- The command of this mnemonic has no meaning yet; raised by an arm of `exec`, and no arm raises it; safe. -/
  | notModelled (mnemonic : String)
  deriving DecidableEq, Repr

/-- The state: the six items of R20, the response register with the edges it still waits (R61), and the model's own
bookkeeping of the host's inputs and of the draws of free values. -/
structure State where
  /-- `buf` (R24) -/
  buf : Memory
  /-- `idx` (R22) -/
  idx : Index
  /-- `msg_len` (R23) -/
  msgLen : Index
  /-- `last_counter` (R25) -/
  lastCounter : Word
  /-- `missed_count` (R26) -/
  missedCount : Word
  /-- `seen_any` (R27) -/
  seenAny : Bool
  /-- The response of the command in flight, `none` when no command is in flight (R61). -/
  rsp : Option Response
  /-- Edges still to pass before `rsp_valid` rises (R61: a finite number, not specified). -/
  wait : Nat
  /-- MODEL'S OWN: the number of edges so far, the index of the draws of free values (log entry 1). -/
  draws : Nat
  /-- MODEL'S OWN: what the host drives on the input ports at the coming edges, the next edge first; after the last one the
  ports are idle (log entry 5). -/
  edges : List PortIn
  deriving DecidableEq, Repr

/-- The block's outcome of a command or of an edge. -/
abbrev Result := Host.Outcome State Fault Refusal

/-- The state right after reset (R32, R221): every byte of `buf` unspecified, no command in flight (R220). -/
def State.reset : State :=
  { buf := []
    idx := 0
    msgLen := 0
    lastCounter := 0
    missedCount := 0
    seenAny := false
    rsp := none
    wait := 0
    draws := 0
    edges := [] }

end Sys2Proof.Machine
end

