-- ==== Sys2Proof/Machine/Ops.lean ====
section
/-! DEFINITION. The shared operations: reading and writing the message buffer (spec 00_scope.md R13, 20_memory.md R40 to R48),
answering a command (30_encoding.md R64), and `raise`, the one way a command fails (60_exceptions.md R192). There is no trap
entry and no trap return (R199, R200). -/

namespace Sys2Proof.Machine

/-- The byte written at index `a` since reset, `none` if there is none. -/
def Memory.lookup : Memory → Nat → Option Byte
  | [], _ => none
  | (x, b) :: m, a => if a = x then some b else Memory.lookup m a

/-- Store one byte at index `a`, keeping the rising order. -/
def Memory.write : Memory → Nat → Byte → Memory
  | [], a, v => [(a, v)]
  | (x, b) :: m, a, v =>
    if a < x then (a, v) :: (x, b) :: m
    else if a = x then (a, v) :: m
    else (x, b) :: Memory.write m a v

/-- Store a byte sequence from index `a` upwards. -/
def Memory.writeBytes : Memory → Nat → List Byte → Memory
  | m, _, [] => m
  | m, a, v :: vs => Memory.writeBytes (Memory.write m a v) (a + 1) vs

/-- `buf[a]` (R13): the byte written there since reset, or, where none was, a free value (R32, R98, log entry 1). -/
def State.bufByte (s : State) (a : Nat) : Byte :=
  (Memory.lookup s.buf a).getD (Config.unwrittenByte s.draws a)

/-- `buf[a..a+n−1]` as a byte sequence (R12). -/
def State.bufBytes (s : State) (a n : Nat) : List Byte :=
  (List.range n).map fun k => s.bufByte (a + k)

/-- `MemRead(a, n)`, "defined only when `a + n <= CAP`" (R13). -/
def State.memRead (s : State) (a n : Nat) : Except Fault (List Byte) :=
  if a + n ≤ Config.cap then .ok (s.bufBytes a n) else .error (.outsideBuffer a n)

/-- `MemWrite(a, n, v)` with `n` the length of `v` (R13), inside the buffer only (R48). -/
def State.memWrite (s : State) (a : Nat) (v : List Byte) : Except Fault State :=
  if a + v.length ≤ Config.cap then .ok { s with buf := Memory.writeBytes s.buf a v }
  else .error (.outsideBuffer a v.length)

/-- Put the response of the current command on the response register (R13 `rsp.<field> <- v`, R61). -/
def State.answer (s : State) (r : Response) : State :=
  { s with rsp := some r }

/-- Answer `OK` with flags and data; every bit that the command does not name is 0 (R64). -/
def State.answerOk (s : State) (flag : BitVec 2) (data : Lanes) : State :=
  s.answer (.ok flag data)

/-- `raise <Status>(info)` (R192): the command ends with the status, and no state is written. -/
def raise (s : State) (st : FailStatus) : State :=
  s.answer (.fail st)

/-- A command's outcome: the state it leaves, or the stop of an access outside the buffer. -/
def finish : Except Fault State → Result
  | .ok s => .next s
  | .error f => .fault f

end Sys2Proof.Machine
end

