-- ==== Sys2Proof/Machine/Operands.lean ====
section
/-! DEFINITION. Operands and results: what a response shows on the ports (spec 30_encoding.md R64, R65, R69), the little-endian
fields of the wire packet (20_memory.md R44, 42_wire_packet_codec.md R141, R142), the message operand of the decode commands
(41_obis_field_decoder.md R110), the integers of 00_scope.md R13. The operands of a command are read off the ports in
Sys2Proof/Decode.lean. -/

namespace Sys2Proof.Machine

/-- The code of a failure on `rsp_status` (R65). -/
def FailStatus.code : FailStatus → BitVec 2
  | .lengthMismatch => 1
  | .decLenInvalid => 2
  | .illegalCmd => 3

/-- `rsp_status` (R65). -/
def Response.status : Response → BitVec 2
  | .ok _ _ => 0
  | .fail st => st.code

/-- `rsp_flag`; all zeros when the status is not `OK` (R64). -/
def Response.flag : Response → BitVec 2
  | .ok f _ => f
  | .fail _ => 0

/-- `rsp_data`; all zeros when the status is not `OK` (R64). -/
def Response.data : Response → Lanes
  | .ok _ d => d
  | .fail _ => 0

/-- A result of 32 bits or fewer at the low end of `rsp_data`, the other bits 0 (R64, R69). -/
def lowResult {w : Nat} (v : BitVec w) : Lanes :=
  v.setWidth 160

/-- `gap` in `rsp_data[31:0]`, `missed` in `rsp_data[63:32]` (R69). -/
def gapResult (gap missed : Word) : Lanes :=
  (missed ++ gap).setWidth 160

/-- `put32le`: the four bytes of a field, the least significant at the lowest offset (R75, R141). -/
def put32le (v : Word) : List Byte :=
  [v.extractLsb' 0 8, v.extractLsb' 8 8, v.extractLsb' 16 8, v.extractLsb' 24 8]

/-- Byte `o` of a byte sequence. The codec asks only for offsets below 20 of a 20-byte packet (R142). -/
def seqByte (p : List Byte) (o : Nat) : Byte :=
  p.getD o 0

/-- `get32le(p, o) = {p[o+3], p[o+2], p[o+1], p[o]}` (R142). -/
def get32le (p : List Byte) (o : Nat) : Word :=
  seqByte p (o + 3) ++ seqByte p (o + 2) ++ seqByte p (o + 1) ++ seqByte p o

/-- The message `buf[0 .. msg_len−1]` as it is when the command executes (R110). -/
def State.message (s : State) : Except Fault (List Byte) :=
  s.memRead 0 s.msgLen.toNat

/-- `wrap32(z)`: the `s32` whose bits are `z mod 2^32` (R13). -/
def wrap32 (z : Int) : Word :=
  BitVec.ofInt 32 z

/-- `quot(a, b)`: integer division truncating toward zero (R13). -/
def quot (a b : Int) : Int :=
  a.tdiv b

/-- `sat32(z) = min(z, 0xFFFFFFFF)` (R13). -/
def sat32 (z : Nat) : Word :=
  BitVec.ofNat 32 (min z 0xFFFFFFFF)

end Sys2Proof.Machine
end

