-- ==== Sys2Proof/Machine/Flags.lean ====
section
/-! DEFINITION. The flags of a response and what they are computed from: `msg_valid`, `start_ok` (spec 40_frame_assembler.md R92,
R96) and `first` (43_sequence_gap_tracker.md R168), in their places on `rsp_flag` (30_encoding.md R69). The block has no
persistent flag but `seen_any` (10_state.md R28). -/

namespace Sys2Proof.Machine

/-- `EndMatch(i1)`: at least five bytes are buffered and the last five are the end marker (R92). Fewer than five never match, so
no byte below index 0 is read. -/
def endMatch (s : State) (i1 : Nat) : Except Fault Bool :=
  if i1 < Config.endLen then .ok false
  else (s.memRead (i1 - Config.endLen) Config.endLen).map (· == Config.endMarker)

/-- `StartOk(i1)`: the message has at least eight bytes and begins with the start marker (R96). -/
def startOk (s : State) (i1 : Nat) : Except Fault Bool :=
  if i1 < Config.startLen then .ok false
  else (s.memRead 0 Config.startLen).map (· == Config.startMarker)

/-- `rsp_flag` of `FA_FEED`: `msg_valid` in bit 0, `start_ok` in bit 1, and `start_ok = 0` whenever `msg_valid = 0` (R69). -/
def feedFlag (msgValid start : Bool) : BitVec 2 :=
  BitVec.ofBool (msgValid && start) ++ BitVec.ofBool msgValid

/-- `rsp_flag` of `SEQ_OBSERVE`: `first` in bit 0 (R69). -/
def firstFlag (first : Bool) : BitVec 2 :=
  BitVec.ofBool false ++ BitVec.ofBool first

end Sys2Proof.Machine
end

