-- ==== Sys2Proof/Machine/FieldDecoder.lean ====
section
/-! DEFINITION. The field decoder: the pieces over an abstract message (spec 41_obis_field_decoder.md R111 to R116) and the three
commands `DEC_POWER`, `DEC_CONS`, `DEC_GEN` (R117 to R121). -/

namespace Sys2Proof.Machine

/-- `Find(m, L, id)` (R111): the first offset `i` with `i + 10 < L` at which the five bytes are the identifier. For `L <= 10` the
range is empty: the difference of natural numbers does not wrap. -/
def find (m id : List Byte) : Option Nat :=
  (List.range (m.length - Config.searchRoom)).find? fun i => (m.drop i).take Config.idLen == id

/-- `Vlen(m, i) = m[i+5][3:0]`, bits 7..4 ignored (R112, R71). -/
def vlen (m : List Byte) (i : Nat) : Nat :=
  ((seqByte m (i + Config.idLen)).extractLsb' 0 4).toNat

/-- The value bytes `m[i+6 .. i+5+vlen]` (R70). -/
def valueBytes (m : List Byte) (i n : Nat) : List Byte :=
  (m.drop (i + Config.idLen + 1)).take n

/-- The seed of the accumulator: all ones when the path is signed and the first value byte has its top bit set (R113). -/
def accumSeed (bytes : List Byte) (isSigned : Bool) : Word :=
  match bytes with
  | [] => 0
  | b :: _ => if isSigned && b.msb then 0xFFFFFFFF else 0

/-- `acc = {acc[23:0], next byte}` (R113). -/
def accumStep (acc : Word) (b : Byte) : Word :=
  acc.extractLsb' 0 24 ++ b

/-- `Accum(m, i, vlen, is_signed)` (R113). -/
def accum (m : List Byte) (i n : Nat) (isSigned : Bool) : Word :=
  (valueBytes m i n).foldl accumStep (accumSeed (valueBytes m i n) isSigned)

/-- `Scaler(m, i, vlen) = signed(m[i+6+vlen])` (R114, R73). -/
def scaler (m : List Byte) (i n : Nat) : Int :=
  (seqByte m (i + Config.idLen + 1 + n)).toInt

/-- `repeat k times: v = wrap32(signed(v) * 10)` (R115). -/
def timesTen : Nat → Word → Word
  | 0, v => v
  | k + 1, v => timesTen k (wrap32 (v.toInt * 10))

/-- `repeat k times: v = quot(signed(v), 10)` (R115). -/
def overTen : Nat → Word → Word
  | 0, v => v
  | k + 1, v => overTen k (wrap32 (quot v.toInt 10))

/-- `ScaleSigned(v, sc)` (R115). The number of repetitions is `|sc|`, 128 for −128. -/
def scaleSigned (v : Word) (sc : Int) : Word :=
  if 0 < sc then timesTen sc.natAbs v
  else if sc < 0 then overTen sc.natAbs v
  else v

/-- `ScaleEnergy(u, sc)` (R116): only −3, −2, −1 are handled, every other scaler leaves the raw value. -/
def scaleEnergy (u : Word) (sc : Int) : Word :=
  if sc = -3 then u
  else if sc = -2 then BitVec.ofNat 32 (u.toNat * 10)
  else if sc = -1 then BitVec.ofNat 32 (u.toNat * 100)
  else u

/-- The scaled value of the field found at `i`, or the failure of a value byte count above 4 (R117, R118, R121). -/
def decodeFound (isSigned : Bool) (scale : Word → Int → Word) (m : List Byte) (i : Nat) : Except FailStatus Word :=
  if Config.vlenMax < vlen m i then .error .decLenInvalid
  else .ok (scale (accum m i (vlen m i) isSigned) (scaler m i (vlen m i)))

/-- The value of a field in a message: 0 when the identifier is not found (R120). The search comes first, the length check
second (R198). -/
def decodeField (id : List Byte) (isSigned : Bool) (scale : Word → Int → Word) (m : List Byte) :
    Except FailStatus Word :=
  match find m id with
  | none => .ok 0
  | some i => decodeFound isSigned scale m i

/-- A decode command on the state: the value in `rsp_data[31:0]`, or the failure; no state is written (R117 to R119). -/
def decodeCommand (id : List Byte) (isSigned : Bool) (scale : Word → Int → Word) (s : State) : Result :=
  finish do
    let m ← s.message
    match decodeField id isSigned scale m with
    | .ok v => return s.answerOk 0 (lowResult v)
    | .error st => return raise s st

/-- `DEC_POWER` (R117): the signed path with the decimal shift. -/
def execDecPower (s : State) : Result :=
  decodeCommand Config.idPower true scaleSigned s

/-- `DEC_CONS` (R118): the unsigned path with the scale table. -/
def execDecCons (s : State) : Result :=
  decodeCommand Config.idCons false scaleEnergy s

/-- `DEC_GEN` (R119): as `DEC_CONS` with `ID_GEN`. -/
def execDecGen (s : State) : Result :=
  decodeCommand Config.idGen false scaleEnergy s

end Sys2Proof.Machine
end

