-- ==== Sys2Proof/Machine/FrameAssembler.lean ====
section
/-! DEFINITION. The frame assembler: `FA_FEED`, `FA_RESET`, `FA_READ` (spec 40_frame_assembler.md R90 to R98). -/

namespace Sys2Proof.Machine

/-- Where `FA_FEED` stores its byte: at `buf[idx]`, only while `idx < CAP` (R41 (a), R91). -/
def feedAddress (s : State) : Option Nat :=
  if s.idx.toNat < Config.cap then some s.idx.toNat else none

/-- Completion: the length is latched, the cursor returns to 0, the buffer is untouched (R93). -/
def completeMessage (s : State) (i1 : Nat) (start : Bool) : State :=
  { s with msgLen := BitVec.ofNat 10 i1, idx := 0 }.answerOk (feedFlag true start)
    (lowResult (BitVec.ofNat 10 i1))

/-- No message yet: the cursor moves on (R91). -/
def keepAccumulating (s : State) (i1 : Nat) : State :=
  { s with idx := BitVec.ofNat 10 i1 }.answerOk (feedFlag false false) 0

/-- After the byte was appended: compare, then complete or accumulate (R91, R198). -/
def afterAppend (s : State) (i1 : Nat) : Except Fault State := do
  if ← endMatch s i1 then
    let start ← startOk s i1
    return completeMessage s i1 start
  else
    return keepAccumulating s i1

/-- `FA_FEED byte` (R91). A byte that arrives when the buffer is full is dropped and never compared (R94, R198). -/
def execFaFeed (b : Byte) (s : State) : Result :=
  match feedAddress s with
  | some a => finish do
      let s1 ← s.memWrite a [b]
      afterAppend s1 (a + 1)
  | none => .next (s.answerOk (feedFlag false false) 0)

/-- `FA_RESET` (R97): cursor and message length to 0, the buffer not written. -/
def execFaReset (s : State) : Result :=
  .next ({ s with idx := 0, msgLen := 0 }.answerOk 0 0)

/-- `FA_READ addr` (R98): `buf[addr]`, whatever `msg_len` is. -/
def execFaRead (addr : BitVec 9) (s : State) : Result :=
  finish do
    let bytes ← s.memRead addr.toNat 1
    return s.answerOk 0 (lowResult (seqByte bytes 0))

end Sys2Proof.Machine
end

