-- ==== Sys2Proof/Machine/SequenceTracker.lean ====
section
/-! DEFINITION. The sequence gap tracker: `SEQ_OBSERVE`, `SEQ_RESET` (spec 43_sequence_gap_tracker.md R160 to R168). Comparisons and
the subtraction are on natural numbers, without wrap-around (R161, R165). -/

namespace Sys2Proof.Machine

/-- The gap of an observation: 0 for the first one (R162), the counters strictly between otherwise (R163), 0 when there are none
(R164). -/
def observedGap (s : State) (counter : Word) : Nat :=
  if s.seenAny && decide (s.lastCounter.toNat + 1 < counter.toNat) then
    counter.toNat - (s.lastCounter.toNat + 1)
  else 0

/-- `missed_count` after an observation: the saturating sum (R166); a gap of 0 leaves it unchanged (R164). -/
def missedAfter (s : State) (gap : Nat) : Word :=
  if gap = 0 then s.missedCount else sat32 (s.missedCount.toNat + gap)

/-- `SEQ_OBSERVE counter` (R161, R168). -/
def execSeqObserve (counter : Word) (s : State) : Result :=
  let gap := observedGap s counter
  let missed := missedAfter s gap
  .next ({ s with lastCounter := counter, missedCount := missed, seenAny := true }.answerOk
    (firstFlag (!s.seenAny)) (gapResult (BitVec.ofNat 32 gap) missed))

/-- `SEQ_RESET` (R167). -/
def execSeqReset (s : State) : Result :=
  .next ({ s with seenAny := false, missedCount := 0, lastCounter := 0 }.answerOk 0 0)

end Sys2Proof.Machine
end

