-- ==== Sys2Proof/Machine/System.lean ====
section
/-! DEFINITION. `NOP` (spec 44_system_commands.md R180) and the five reserved opcodes, each answered with `ILLEGAL_CMD` (R181, R195). -/

namespace Sys2Proof.Machine

/-- `NOP` (R180). -/
def execNop (s : State) : Result :=
  .next (s.answerOk 0 0)

/-- Opcode `0xB` (R181). -/
def execReservedB (s : State) : Result :=
  .next (raise s .illegalCmd)

/-- Opcode `0xC` (R181). -/
def execReservedC (s : State) : Result :=
  .next (raise s .illegalCmd)

/-- Opcode `0xD` (R181). -/
def execReservedD (s : State) : Result :=
  .next (raise s .illegalCmd)

/-- Opcode `0xE` (R181). -/
def execReservedE (s : State) : Result :=
  .next (raise s .illegalCmd)

/-- Opcode `0xF` (R181). -/
def execReservedF (s : State) : Result :=
  .next (raise s .illegalCmd)

end Sys2Proof.Machine
end

