-- ==== Sys2Proof/Machine/WirePacket.lean ====
section
/-! DEFINITION. The wire packet codec: `PKT_ENCODE`, `PKT_DECODE` (spec 42_wire_packet_codec.md R140 to R146). It reads and writes no
state; the float fields are 32 opaque bits (R146). -/

namespace Sys2Proof.Machine

/-- The 20 bytes of a wire packet: five little-endian fields in declared order, no padding (R75, R141). -/
def packetBytes (power cons gen batt counter : Word) : List Byte :=
  put32le power ++ put32le cons ++ put32le gen ++ put32le batt ++ put32le counter

/-- The five fields of a 20-byte packet in their places on `rsp_data` (R69, R142). -/
def packetFields (p : List Byte) : Lanes :=
  get32le p 16 ++ get32le p 12 ++ get32le p 8 ++ get32le p 4 ++ get32le p 0

/-- `PKT_ENCODE power, cons, gen, batt, counter` (R141). -/
def execPktEncode (power cons gen batt counter : Word) (s : State) : Result :=
  .next (s.answerOk 0 (ofLanes (packetBytes power cons gen batt counter)))

/-- `PKT_DECODE n, p` (R142): the length is tested before any byte is looked at (R143, R198). -/
def execPktDecode (n : Byte) (p : List Byte) (s : State) : Result :=
  if n.toNat = Config.pktLen then .next (s.answerOk 0 (packetFields p))
  else .next (raise s .lengthMismatch)

end Sys2Proof.Machine
end

