-- ==== Sys2Proof/Machine/Dispatch.lean ====
section
/-! DEFINITION. One arm per command of the opcode table (spec 30_encoding.md R63). -/

namespace Sys2Proof.Machine

/-- What a command does to the state and what it answers (R14: one atomic step). -/
def exec (i : Instr) (s : State) : Host.Outcome State Fault Refusal :=
  match i with
  | .nop => Sys2Proof.Machine.execNop s
  | .faFeed byte => Sys2Proof.Machine.execFaFeed byte s
  | .faReset => Sys2Proof.Machine.execFaReset s
  | .faRead addr => Sys2Proof.Machine.execFaRead addr s
  | .decPower => Sys2Proof.Machine.execDecPower s
  | .decCons => Sys2Proof.Machine.execDecCons s
  | .decGen => Sys2Proof.Machine.execDecGen s
  | .pktEncode power cons gen batt counter => Sys2Proof.Machine.execPktEncode power cons gen batt counter s
  | .pktDecode n p => Sys2Proof.Machine.execPktDecode n p s
  | .seqObserve counter => Sys2Proof.Machine.execSeqObserve counter s
  | .seqReset => Sys2Proof.Machine.execSeqReset s
  | .reservedB => Sys2Proof.Machine.execReservedB s
  | .reservedC => Sys2Proof.Machine.execReservedC s
  | .reservedD => Sys2Proof.Machine.execReservedD s
  | .reservedE => Sys2Proof.Machine.execReservedE s
  | .reservedF => Sys2Proof.Machine.execReservedF s

end Sys2Proof.Machine
end

