-- ==== Sys2Proof/Machine/Ports.lean ====
section
/-! DEFINITION. The ports and the handshake (spec 30_encoding.md R60, R61) and the reset input (70_reset_and_hazards.md R220): what
the block does at one rising edge of `clk`, given what a command does. -/

namespace Sys2Proof.Machine

/-- Ports on which the host presents nothing, takes nothing and does not reset. -/
def PortIn.idle : PortIn :=
  { rst := false, cmdValid := false, cmd := { op := 0, len := 0, data := 0 }, rspReady := false }

/-- Ports on which the host presents a command. -/
def PortIn.present (c : Command) : PortIn :=
  { rst := false, cmdValid := true, cmd := c, rspReady := false }

/-- The input ports at the next edge. -/
def State.portIn (s : State) : PortIn :=
  s.edges.head?.getD PortIn.idle

/-- The state with the next edge's inputs taken, and a fresh draw index. -/
def State.sampled (s : State) : State :=
  { s with edges := s.edges.tail, draws := s.draws + 1 }

/-- `cmd_ready`: 0 while `rst = 1` (R220) and from the acceptance of a command until its response has been delivered (R61). -/
def State.cmdReady (s : State) (p : PortIn) : Bool :=
  !p.rst && s.rsp.isNone

/-- `rsp_valid`, with `rsp_status`, `rsp_flag`, `rsp_data` of the response where it is 1 (R61); 0 while `rst = 1` (R220). -/
def State.rspPort (s : State) (p : PortIn) : Option Response :=
  if p.rst || decide (0 < s.wait) then none else s.rsp

/-- `rsp_valid` (R60). -/
def State.rspValid (s : State) (p : PortIn) : Bool :=
  (s.rspPort p).isSome

/-- An edge with `rst = 1`: the reset state, whatever the block was doing (R220, R221). A command in flight gets no response. The
host's coming inputs and the draw index are not the block's. -/
def State.takeReset (s : State) : State :=
  { State.reset with draws := s.draws, edges := s.edges }

/-- An edge while a command is in flight: time passes until `rsp_valid` rises; then the response is delivered if `rsp_ready = 1`
and held stable if not (R61). -/
def State.responsePhase (s : State) (p : PortIn) : State :=
  if 0 < s.wait then { s with wait := s.wait - 1 }
  else if p.rspReady then { s with rsp := none }
  else s

/-- After a command was accepted its response takes a finite, unspecified number of further edges (R61, R240, log entry 2). -/
def startWait : Result → Result
  | .next s => .next { s with wait := Config.latency s.draws }
  | .fault f => .fault f
  | .refused r => .refused r

/-- One rising edge of `clk`, `run c` being what the command `c` does. `rst` wins over everything (R198, R220); a command is
accepted when `cmd_valid = 1`, `cmd_ready = 1` and `rst = 0` (R61); with no command presented nothing happens (R90). -/
def clockEdge (run : Command → State → Result) (s : State) : Result :=
  if s.portIn.rst then .next s.sampled.takeReset
  else if s.rsp.isSome then .next (s.sampled.responsePhase s.portIn)
  else if s.portIn.cmdValid then startWait (run s.portIn.cmd s.sampled)
  else .next s.sampled

/-- The host presents command `c` at the next edge, at which the block is ready for it. -/
def State.withCommand (s : State) (c : Command) : State :=
  { s with edges := PortIn.present c :: s.edges, rsp := none, wait := 0 }

end Sys2Proof.Machine
end

