-- ==== Sys2Proof/Machine/Step.lean ====
section
/-! DEFINITION. One step of the machine: one rising edge of `clk` (spec 30_encoding.md R61, 70_reset_and_hazards.md R220). The block
has no program counter; a command comes from the host's ports (10_state.md R21, 20_memory.md R52). -/

namespace Sys2Proof.Machine

/-- One rising edge of `clk`; an accepted command is decoded and executed whole at the edge that accepts it (R14, R61). -/
def step (s : State) : Host.Outcome State Fault Refusal :=
  clockEdge (fun c => exec (decode c)) s

/-- The state with the command of a table word presented at the next edge, the block ready to accept it (log entry 3). -/
def State.withFetchWord (s : State) (nbits w : Nat) : State :=
  s.withCommand (tableCommand nbits w)

end Sys2Proof.Machine
end

