-- ==== Sys2Proof/Safety.lean ====
section
/-! DEFINITION. What the claims speak of: sequences of commands (spec 20_memory.md R50), the invariant of the block's state
(10_state.md R22, R23, R32, 20_memory.md R49, 40_frame_assembler.md R92, R94), and the numbers that a byte sequence denotes
(30_encoding.md R72). -/

namespace Sys2Proof.Machine

/-- Commands executed one at a time, completely, in the order given (R50). -/
def execAll : List Instr → State → Result
  | [], s => .next s
  | i :: is, s =>
    match exec i s with
    | .next t => execAll is t
    | .fault f => .fault f
    | .refused r => .refused r

/-- `idx` stays in 0..512 (R20, R22). -/
abbrev State.idxInRange (s : State) : Prop :=
  s.idx.toNat ≤ Config.cap

/-- `msg_len` is 0 or 5..512 (R20, R23). -/
abbrev State.msgLenInRange (s : State) : Prop :=
  s.msgLen.toNat = 0 ∨ (Config.endLen ≤ s.msgLen.toNat ∧ s.msgLen.toNat ≤ Config.cap)

/-- Every byte below the cursor and every byte of the last completed message was written since reset (R30, R32). -/
abbrev State.writtenBelow (s : State) : Prop :=
  ∀ a, a < max s.idx.toNat s.msgLen.toNat → (Memory.lookup s.buf a).isSome = true

/-- The end marker stands nowhere among the bytes appended since the cursor was last 0 (R92, R94). -/
abbrev State.noEndBuffered (s : State) : Prop :=
  ∀ k, k < s.idx.toNat - 4 → s.bufBytes k Config.endLen ≠ Config.endMarker

/-- The last five bytes of the completed message are the end marker, as long as no later byte overwrote them (R49, R226). -/
abbrev State.messageEndsWithMarker (s : State) : Prop :=
  Config.endLen ≤ s.msgLen.toNat → s.idx.toNat + Config.endLen ≤ s.msgLen.toNat →
    s.bufBytes (s.msgLen.toNat - Config.endLen) Config.endLen = Config.endMarker

/-- A tracker that has seen nothing has counted nothing (R32, R167). -/
abbrev State.freshTracker (s : State) : Prop :=
  s.seenAny = false → s.lastCounter = 0 ∧ s.missedCount = 0

/-- No edge is waited for when no command is in flight (R61). -/
abbrev State.noIdleWait (s : State) : Prop :=
  s.rsp = none → s.wait = 0

/-- The invariant of the block. -/
abbrev State.Inv (s : State) : Prop :=
  Memory.wf s.buf ∧ s.idxInRange ∧ s.msgLenInRange ∧ s.writtenBelow ∧ s.noEndBuffered ∧
    s.messageEndsWithMarker ∧ s.freshTracker ∧ s.noIdleWait

/-- The number a byte sequence denotes, most significant byte first (R43). -/
def bigEndian (bytes : List Byte) : Nat :=
  bytes.foldl (fun n b => 256 * n + b.toNat) 0

/-- The same bytes as a two's-complement number of `8·n` bits (R72); 0 for no bytes. -/
def signedBigEndian (bytes : List Byte) : Int :=
  if 2 * bigEndian bytes < 256 ^ bytes.length then (bigEndian bytes : Int)
  else (bigEndian bytes : Int) - 256 ^ bytes.length

/-- A value times a power of ten, the quotient truncated toward zero for a negative exponent (R115, R124). -/
def decimalShift (v sc : Int) : Int :=
  if 0 ≤ sc then v * 10 ^ sc.toNat else v.tdiv (10 ^ (-sc).toNat)

/-- The factor of the energy paths' scale table (R116). -/
def energyFactor (sc : Int) : Nat :=
  if sc = -2 then 10 else if sc = -1 then 100 else 1

/-- The message `buf[0 .. msg_len−1]` (R110). -/
def State.messageBytes (s : State) : List Byte :=
  s.bufBytes 0 s.msgLen.toNat

/-- The identifier stands in the message at offset `i` and at no smaller one, and `i` is inside the search bound (R111). -/
abbrev State.fieldAt (s : State) (id : List Byte) (i : Nat) : Prop :=
  i + 10 < s.msgLen.toNat ∧ s.bufBytes i 5 = id ∧ ∀ j, j < i → s.bufBytes j 5 ≠ id

/-- The identifier stands in the message at no offset `i` with `i + 10 < L`, that is `i < L − 10` (R111). -/
abbrev State.fieldAbsent (s : State) (id : List Byte) : Prop :=
  ∀ i, i < s.msgLen.toNat - 10 → s.bufBytes i 5 ≠ id

/-- The value byte count of the field at offset `i`: the low four bits of its length byte (R112). -/
def State.fieldVlen (s : State) (i : Nat) : Nat :=
  ((s.bufByte (i + 5)).extractLsb' 0 4).toNat

/-- The value bytes of the field at offset `i` (R70). -/
def State.fieldValue (s : State) (i : Nat) : List Byte :=
  s.bufBytes (i + 6) (s.fieldVlen i)

/-- The scaler of the field at offset `i`, a signed byte (R73, R114). -/
def State.fieldScaler (s : State) (i : Nat) : Int :=
  (s.bufByte (i + 6 + s.fieldVlen i)).toInt

/-- The command presented at the next edge is accepted there and is `i` (R61). -/
abbrev State.accepts (s : State) (i : Instr) : Prop :=
  s.portIn.rst = false ∧ s.rsp = none ∧ s.portIn.cmdValid = true ∧ decode s.portIn.cmd = i

end Sys2Proof.Machine
end

