-- ==== Sys2Proof/Certificates/Slice0/Obligations.lean ====
section
/-! DEFINITION. The statements for the provers, each from the numbered rules of spec/. -/

open Sys2Proof Sys2Proof.Machine

/-! ## Encoding -/

/-- Port values written out from the opcode table and the operand table, every one with set bits among those its command
ignores (R63, R68; operands as in V-FA-23, V-PK-2, V-SQ-16), and the eleven commands without operands also as table words of
eight bits with every ignored bit 0. In a table word the place of `cmd_op` at bits 3..0 is the MODEL'S CHOICE (log entry 3). -/
def Obligations.SpecWordsDecodeToTheirCommands : Prop :=
  decode { op := 0x0, len := 0xFF, data := 0xFFFF } = .nop ∧
  decode { op := 0x1, len := 0xFF, data := 0xFFFFFF1A } = .faFeed 0x1A ∧
  decode { op := 0x2, len := 0x14, data := 0x1B } = .faReset ∧
  decode { op := 0x3, len := 0x01, data := 0x20E } = .faRead 0x00E ∧
  decode { op := 0x4, len := 0x80, data := 0x1 } = .decPower ∧
  decode { op := 0x5, len := 0x14, data := 0x07 } = .decCons ∧
  decode { op := 0x6, len := 0x01, data := 0x80000000 } = .decGen ∧
  decode { op := 0x7, len := 0x13, data := 0x14131211100F0E0D0C0B0A090807060504030201 } =
    .pktEncode 0x04030201 0x08070605 0x0C0B0A09 0x100F0E0D 0x14131211 ∧
  decode { op := 0x8, len := 0x03, data := 0x04030201 } = .pktDecode 3 [0x01, 0x02, 0x03] ∧
  decode { op := 0x9, len := 0x14, data := 0x100000008 } = .seqObserve 8 ∧
  decode { op := 0xA, len := 0x14, data := 0x05 } = .seqReset ∧
  decode { op := 0xB, len := 0x14, data := 0x1B } = .reservedB ∧
  decode { op := 0xC, len := 0x14, data := 0x1B } = .reservedC ∧
  decode { op := 0xD, len := 0x14, data := 0x1B } = .reservedD ∧
  decode { op := 0xE, len := 0x14, data := 0x1B } = .reservedE ∧
  decode { op := 0xF, len := 0x14, data := 0x1B } = .reservedF ∧
  decodeTableWord 8 0x0 = some .nop ∧ decodeTableWord 8 0x2 = some .faReset ∧
  decodeTableWord 8 0x4 = some .decPower ∧ decodeTableWord 8 0x5 = some .decCons ∧
  decodeTableWord 8 0x6 = some .decGen ∧
  decodeTableWord 8 0xA = some .seqReset ∧ decodeTableWord 8 0xB = some .reservedB ∧
  decodeTableWord 8 0xC = some .reservedC ∧ decodeTableWord 8 0xD = some .reservedD ∧
  decodeTableWord 8 0xE = some .reservedE ∧ decodeTableWord 8 0xF = some .reservedF

/-- Decoding what the encoder writes gives the command back, with every operand at every value (R62, R63, R68). -/
def Obligations.DecodeOfEncodeIsTheCommand : Prop :=
  ∀ i : Instr, i.wellFormed = true → decode (encode i) = i

/-- Whatever stands on the command ports decodes to a well-formed command of exactly that opcode: no reserved opcode falls
through to a neighbour (R63, R66). -/
def Obligations.EveryPortValueDecodesToItsOpcode : Prop :=
  ∀ c : Command, (decode c).wellFormed = true ∧ (decode c).opcode = c.op

/-- `cmd_op` alone selects the command and exactly the operand bits of R68 decide its operands: two port values are the same
command if and only if they agree there; then they do the same in every state (R62, R68). -/
def Obligations.OnlyNamedBitsDecideTheCommand : Prop :=
  (∀ c d : Command, decode c = decode d ↔
    c.op = d.op ∧
    (c.op = 0x1 → c.data.extractLsb' 0 8 = d.data.extractLsb' 0 8) ∧
    (c.op = 0x3 → c.data.extractLsb' 0 9 = d.data.extractLsb' 0 9) ∧
    (c.op = 0x7 → c.data = d.data) ∧
    (c.op = 0x8 → c.len = d.len ∧ ∀ k, k < min c.len.toNat 20 → lane c.data k = lane d.data k) ∧
    (c.op = 0x9 → c.data.extractLsb' 0 32 = d.data.extractLsb' 0 32)) ∧
  (∀ (c d : Command) (s : State), decode c = decode d → exec (decode c) s = exec (decode d) s)

/-! ## The step, the handshake, reset -/

/-- A command presented with `cmd_valid = 1`, `rst = 0` and no command in flight is executed by this step: the step is `exec` of
the decoded command on the state whose next edge has been taken; the response then waits a free number of edges (R61). That the
writes stand at the accepting edge and the wait after it is the MODEL'S CHOICE (log entry 2). A stop of the command is the stop of the step. -/
def Obligations.StepRunsTheDecodedCommand : Prop :=
  ∀ (s : State) (p : PortIn) (rest : List PortIn) (i : Instr),
    s.edges = p :: rest → p.rst = false → p.cmdValid = true → s.rsp = none → decode p.cmd = i →
    step s =
      match exec i { s with edges := rest, draws := s.draws + 1 } with
      | .next t => .next { t with wait := Config.latency t.draws }
      | .fault f => .fault f
      | .refused r => .refused r

/-- A table word placed by `withFetchWord` is presented at the next edge, accepted and run there (R61), and its response waits.
MODEL'S CHOICE: the numbering of the word's bits and the placing itself (log entry 3), and that the writes stand at the
accepting edge with a free number of edges after it (log entry 2). -/
def Obligations.FetchWordIsExecutedNext : Prop :=
  ∀ (s : State) (nbits w : Nat) (i : Instr) (t : State), decodeTableWord nbits w = some i →
    exec i { s with rsp := none, wait := 0, draws := s.draws + 1 } = .next t →
    step (s.withFetchWord nbits w) = .next { t with wait := Config.latency t.draws }

/-- While a command is in flight no other is accepted; its response is held until `rsp_ready` is 1 at an edge at which it is
presented, and then it is gone (R61). MODEL'S CHOICE: the number of edges waited (log entry 2), and, DEDUCED from R61, that a
command presented at the very edge that delivers the response is not accepted there (log entry 9). -/
def Obligations.ResponseIsHeldUntilDelivered : Prop :=
  ∀ (s : State) (p : PortIn) (rest : List PortIn) (r : Response),
    s.edges = p :: rest → p.rst = false → s.rsp = some r →
    s.cmdReady p = false ∧
    (0 < s.wait → s.rspPort p = none ∧
      step s = .next { s with wait := s.wait - 1, edges := rest, draws := s.draws + 1 }) ∧
    (s.wait = 0 → s.rspPort p = some r ∧
      (p.rspReady = false → step s = .next { s with edges := rest, draws := s.draws + 1 }) ∧
      (p.rspReady = true → step s = .next { s with rsp := none, edges := rest, draws := s.draws + 1 }))

/-- With no command in flight and none presented the block does nothing; it is ready for a command (R61, R90). -/
def Obligations.IdleEdgeChangesNothing : Prop :=
  ∀ s : State, s.portIn.rst = false → s.portIn.cmdValid = false → s.rsp = none →
    s.cmdReady s.portIn = true ∧ s.rspPort s.portIn = none ∧
    step s = .next { s with edges := s.edges.tail, draws := s.draws + 1 }

/-- The response of a command in flight is presented after finitely many edges, with the six items of state as the command
left them, unless `rst` comes first (R61, R240). -/
def Obligations.CommandInFlightGetsItsResponse : Prop :=
  ∀ (s : State) (r : Response), s.rsp = some r →
    (∀ p, p ∈ s.edges.take s.wait → p.rst = false) →
    ∃ t, Host.Core.run Sys2Proof.core s.wait s = .next t ∧ t.wait = 0 ∧
      (∀ q : PortIn, q.rst = false → t.rspPort q = some r) ∧
      t.buf = s.buf ∧ t.idx = s.idx ∧ t.msgLen = s.msgLen ∧ t.lastCounter = s.lastCounter ∧
      t.missedCount = s.missedCount ∧ t.seenAny = s.seenAny

/-- Every command that completes has put a response on the response register (R61). -/
def Obligations.EveryCommandIsAnswered : Prop :=
  ∀ (i : Instr) (s t : State), exec i s = .next t → ∃ r, t.rsp = some r

/-- An edge with `rst = 1` leaves the reset state whatever the block was doing: nothing in flight, every byte of `buf`
unwritten; while `rst = 1` the block is neither ready nor presents a response, and on the first edge with `rst = 0` it is ready
(R220, R221). MODEL'S CHOICE: that `buf` lists nothing even where an `FA_FEED` was in flight (log entry 7, in part DEDUCED), and
the response register, its wait and the list of inputs as fields of the state (log entries 5, 2). -/
def Obligations.ResetEdgeLeavesTheResetState : Prop :=
  ∀ (s : State) (p : PortIn) (rest : List PortIn), s.edges = p :: rest → p.rst = true →
    s.cmdReady p = false ∧ s.rspValid p = false ∧
    ∃ t, step s = .next t ∧ t.idx = 0 ∧ t.msgLen = 0 ∧ t.seenAny = false ∧ t.missedCount = 0 ∧ t.lastCounter = 0 ∧
      (∀ a, Memory.lookup t.buf a = none) ∧ t.rsp = none ∧ t.wait = 0 ∧ t.edges = rest ∧
      ∀ q : PortIn, q.rst = false → t.cmdReady q = true

/-- The values after reset, every byte of `buf` unwritten (R32, R221). -/
def Obligations.ResetStateHoldsTheSpecValues : Prop :=
  State.reset.idx = 0 ∧ State.reset.msgLen = 0 ∧ State.reset.seenAny = false ∧ State.reset.missedCount = 0 ∧
  State.reset.lastCounter = 0 ∧ ∀ a, Memory.lookup State.reset.buf a = none

/-- The state after reset meets the invariant (R22, R23, R32). -/
def Obligations.ResetMeetsTheInvariant : Prop :=
  State.reset.Inv

/-- Every step keeps the invariant: the buffer's canonical form, `idx <= 512`, `msg_len` 0 or 5..512, no unwritten byte below
the cursor or in the message, no end marker among the buffered bytes, the message ending in the marker, a fresh tracker with
nothing counted (R22, R23, R30, R49, R92). -/
def Obligations.StepKeepsTheInvariant : Prop :=
  ∀ s t : State, s.Inv → step s = .next t → t.Inv

/-- From a state that meets the invariant no step stops: no access leaves the buffer and no command is refused (R48, R190). -/
def Obligations.NoStepStopsFromTheInvariant : Prop :=
  ∀ s : State, s.Inv → ∃ t, step s = .next t

/-- Every step keeps the buffer's canonical form, from every state that has it (R40). -/
def Obligations.StepKeepsTheBufferCanonical : Prop :=
  ∀ s t : State, Memory.wf s.buf → step s = .next t → Memory.wf t.buf

/-! ## Whole-machine rules -/

/-- A command that is not listed for an item of state does not write it (R33, the column "written by"); nothing but the step
touches the model's own fields. Every byte of `buf` reads as before unless the command is `FA_FEED`. -/
def Obligations.OnlyListedCommandsWriteAnItem : Prop :=
  ∀ (i : Instr) (s t : State), exec i s = .next t →
    ((∀ b, i ≠ .faFeed b) → t.buf = s.buf ∧ ∀ a, t.bufByte a = s.bufByte a) ∧
    ((∀ b, i ≠ .faFeed b) → i ≠ .faReset → t.idx = s.idx ∧ t.msgLen = s.msgLen) ∧
    ((∀ c, i ≠ .seqObserve c) → i ≠ .seqReset →
      t.lastCounter = s.lastCounter ∧ t.missedCount = s.missedCount ∧ t.seenAny = s.seenAny) ∧
    t.wait = s.wait ∧ t.draws = s.draws ∧ t.edges = s.edges

/-- A command that fails has done nothing: only the response differs, it shows no flag and no data, and the next command is
executed as if the failed one had not been (R192). -/
def Obligations.FailedCommandWritesNothing : Prop :=
  ∀ (i : Instr) (s t : State) (r : Response), exec i s = .next t → t.rsp = some r → r.status ≠ 0 →
    t = { s with rsp := some r } ∧ r.flag = 0 ∧ r.data = 0 ∧ ∀ j : Instr, exec j t = exec j s

/-- Which command can answer which status; every other command answers `OK` (R191, R195). -/
def Obligations.StatusesAreRaisedByTheirCommandsOnly : Prop :=
  ∀ (i : Instr) (s t : State) (r : Response), exec i s = .next t → t.rsp = some r →
    (r.status = 1 → i.opcode = 0x8) ∧
    (r.status = 2 → i.opcode = 0x4 ∨ i.opcode = 0x5 ∨ i.opcode = 0x6) ∧
    (r.status = 3 ↔ 0xB ≤ i.opcode.toNat)

/-- No command depends on the response of an earlier command (R28). -/
def Obligations.NoCommandReadsAnEarlierResponse : Prop :=
  ∀ (i : Instr) (s : State) (r : Option Response), exec i { s with rsp := r } = exec i s

/-- Bits of the response that R69 does not name for the command are 0, and `start_ok` is 0 whenever `msg_valid` is 0 (R64,
R69). -/
def Obligations.UnnamedResultBitsAreZero : Prop :=
  ∀ (i : Instr) (s t : State) (r : Response), exec i s = .next t → t.rsp = some r →
    (i.opcode ∉ ([0x1, 0x9] : List (BitVec 4)) → r.flag = 0) ∧
    (i.opcode = 0x1 → (r.flag = 0 ∧ r.data = 0) ∨ r.flag = 1 ∨ r.flag = 3) ∧
    (i.opcode = 0x9 → r.flag.toNat < 2) ∧
    (i.opcode ∈ ([0x0, 0x2, 0xA] : List (BitVec 4)) → r.data = 0) ∧
    (i.opcode = 0x1 → r.data.toNat < 2 ^ 10) ∧ (i.opcode = 0x3 → r.data.toNat < 2 ^ 8) ∧
    (i.opcode ∈ ([0x4, 0x5, 0x6] : List (BitVec 4)) → r.data.toNat < 2 ^ 32) ∧
    (i.opcode = 0x9 → r.data.toNat < 2 ^ 64)

/-! ## Frame assembler -/

/-- `FA_FEED` with room completes a message when the byte is `1A` and the four bytes before it are `1B`: the byte is stored at
`buf[idx]`, the length is latched, the cursor returns to 0, and `start_ok` says whether the message of at least eight bytes
begins with the start marker (R91, R92, R93, R96). -/
def Obligations.FaFeedCompletesAtTheEndMarker : Prop :=
  ∀ (b : Byte) (s : State), s.idx.toNat < 512 → 4 ≤ s.idx.toNat →
    s.bufBytes (s.idx.toNat - 4) 4 = [0x1B, 0x1B, 0x1B, 0x1B] → b = 0x1A →
    ∃ t, exec (.faFeed b) s = .next t ∧
      t.idx = 0 ∧ t.msgLen.toNat = s.idx.toNat + 1 ∧
      t.rsp = some (.ok
        (if 8 ≤ s.idx.toNat + 1 ∧ t.bufBytes 0 8 = [0x1B, 0x1B, 0x1B, 0x1B, 0x01, 0x01, 0x01, 0x01] then 3 else 1)
        (BitVec.ofNat 160 (s.idx.toNat + 1))) ∧
      (∀ a, t.bufByte a = if a = s.idx.toNat then b else s.bufByte a) ∧
      t.lastCounter = s.lastCounter ∧ t.missedCount = s.missedCount ∧ t.seenAny = s.seenAny

/-- `FA_FEED` with room and no end marker completed stores the byte, moves the cursor on and reports no message (R91, R92). -/
def Obligations.FaFeedAccumulatesOtherwise : Prop :=
  ∀ (b : Byte) (s : State), s.idx.toNat < 512 →
    ¬ (4 ≤ s.idx.toNat ∧ s.bufBytes (s.idx.toNat - 4) 4 = [0x1B, 0x1B, 0x1B, 0x1B] ∧ b = 0x1A) →
    ∃ t, exec (.faFeed b) s = .next t ∧
      t.idx.toNat = s.idx.toNat + 1 ∧ t.msgLen = s.msgLen ∧ t.rsp = some (.ok 0 0) ∧
      (∀ a, t.bufByte a = if a = s.idx.toNat then b else s.bufByte a) ∧
      t.lastCounter = s.lastCounter ∧ t.missedCount = s.missedCount ∧ t.seenAny = s.seenAny

/-- `FA_FEED` on a full buffer drops the byte: nothing is written and no message is reported, however many bytes follow (R94). -/
def Obligations.FullBufferDropsEveryByte : Prop :=
  ∀ (s : State) (bs : List Byte), s.idx.toNat = 512 → bs ≠ [] →
    execAll (feeds bs) s = .next { s with rsp := some (.ok 0 0) }

/-- The full condition lasts: whatever an edge brings, short of `rst` and of `FA_RESET`, a full assembler stays full, its buffer
and the last message length stay, and no `FA_FEED` reports a message (R94, R225). -/
def Obligations.FullConditionIsAbsorbing : Prop :=
  ∀ s t : State, s.idx.toNat = 512 → step s = .next t → s.portIn.rst = false → ¬ s.accepts .faReset →
    t.idx = s.idx ∧ t.buf = s.buf ∧ t.msgLen = s.msgLen ∧
    ∀ b, s.accepts (.faFeed b) → t.rsp = some (.ok 0 0)

/-- What `FA_FEED` leaves unchanged: every byte of `buf` outside the byte at the store address that `feedAddress` computes (all
of them when there is none), the tracker, and `msg_len` unless the response reports a message (R33, R91). -/
def Obligations.FaFeedFrame : Prop :=
  ∀ (b : Byte) (s t : State), exec (.faFeed b) s = .next t →
    (∀ a, feedAddress s = some a → t.bufByte a = b ∧ ∀ x, x ≠ a → t.bufByte x = s.bufByte x) ∧
    (feedAddress s = none → ∀ x, t.bufByte x = s.bufByte x) ∧
    (t.msgLen = s.msgLen ∨ ∃ f d, t.rsp = some (.ok f d) ∧ f.getLsbD 0 = true) ∧
    t.lastCounter = s.lastCounter ∧ t.missedCount = s.missedCount ∧ t.seenAny = s.seenAny ∧
    t.wait = s.wait ∧ t.draws = s.draws ∧ t.edges = s.edges

/-- The framing property: from `idx = 0`, feeding 5 to 512 bytes that end in the end marker and hold it nowhere else reports no
message before the last byte and one at the last, of that length, whose content is the bytes fed, marker included (R95 (a)). -/
def Obligations.OneMessagePerMarkedByteSequence : Prop :=
  ∀ (s : State) (bs : List Byte), s.idx = 0 → 5 ≤ bs.length → bs.length ≤ 512 →
    bs.drop (bs.length - 5) = Config.endMarker →
    (∀ k, k < bs.length - 5 → (bs.drop k).take 5 ≠ Config.endMarker) →
    (∀ n, 0 < n → n < bs.length →
      ∃ t, execAll (feeds (bs.take n)) s = .next t ∧ t.idx.toNat = n ∧ t.rsp = some (.ok 0 0)) ∧
    ∃ t f, execAll (feeds bs) s = .next t ∧ t.rsp = some (.ok f (BitVec.ofNat 160 bs.length)) ∧
      f.getLsbD 0 = true ∧ t.idx = 0 ∧ t.msgLen.toNat = bs.length ∧ t.bufBytes 0 bs.length = bs

/-- From `idx = 0`, feeding 512 bytes that hold the end marker nowhere fills the buffer, and every later `FA_FEED` reports no
message and changes nothing (R95 (c)). -/
def Obligations.UnmarkedBytesFillTheBuffer : Prop :=
  ∀ (s : State) (bs : List Byte), s.idx = 0 → bs.length = 512 →
    (∀ k, k < 508 → (bs.drop k).take 5 ≠ Config.endMarker) →
    ∃ t, execAll (feeds bs) s = .next t ∧ t.idx.toNat = 512 ∧ t.msgLen = s.msgLen ∧
      ∀ b, exec (.faFeed b) t = .next { t with rsp := some (.ok 0 0) }

/-- Stale bytes take no part in the compare or the start check: the response of `FA_FEED` depends on the cursor, on the bytes
below it and on the byte fed alone (R30, R92). -/
def Obligations.StaleBytesNeverMatch : Prop :=
  ∀ (b : Byte) (s s' : State), s.idx = s'.idx → (∀ a, a < s.idx.toNat → s.bufByte a = s'.bufByte a) →
    ∃ t t', exec (.faFeed b) s = .next t ∧ exec (.faFeed b) s' = .next t' ∧ t.rsp = t'.rsp ∧ t.idx = t'.idx

/-- `FA_RESET` sets the cursor and the message length to 0 and answers `OK`; the buffer and all else stay (R97). -/
def Obligations.FaResetClearsTheCursorOnly : Prop :=
  ∀ s : State, exec .faReset s = .next { s with idx := 0, msgLen := 0, rsp := some (.ok 0 0) }

/-- `FA_READ` answers `buf[addr]` in `rsp_data[7:0]` whatever `msg_len` is, and writes no state. A byte never written since reset
is some byte, which the model leaves free (R98, log entry 1). -/
def Obligations.FaReadAnswersTheStoredByte : Prop :=
  ∀ (a : BitVec 9) (s : State),
    (∀ b, Memory.lookup s.buf a.toNat = some b →
      exec (.faRead a) s = .next { s with rsp := some (.ok 0 (b.setWidth 160)) }) ∧
    (Memory.lookup s.buf a.toNat = none →
      ∃ b : Byte, exec (.faRead a) s = .next { s with rsp := some (.ok 0 (b.setWidth 160)) })

/-! ## Field decoder -/

/-- Field not found: each decode command answers `OK` with value 0 and writes nothing when its identifier stands at no offset
inside the search bound (R111, R120). -/
def Obligations.AbsentFieldDecodesToZero : Prop :=
  ∀ s : State, s.msgLen.toNat ≤ 512 →
    (s.fieldAbsent Config.idPower → exec .decPower s = .next { s with rsp := some (.ok 0 0) }) ∧
    (s.fieldAbsent Config.idCons → exec .decCons s = .next { s with rsp := some (.ok 0 0) }) ∧
    (s.fieldAbsent Config.idGen → exec .decGen s = .next { s with rsp := some (.ok 0 0) })

/-- `DEC_POWER` on a field with at most four value bytes: the bytes as a big-endian two's-complement number, shifted by the
decimal scaler with truncation toward zero, in 32 bits (R111 to R115, R117, R124). -/
def Obligations.DecPowerIsTheShiftedSignedValue : Prop :=
  ∀ (s : State) (i : Nat), s.msgLen.toNat ≤ 512 → s.fieldAt Config.idPower i → s.fieldVlen i ≤ 4 →
    exec .decPower s = .next { s with
      rsp := some (.ok 0
        ((BitVec.ofInt 32 (decimalShift (signedBigEndian (s.fieldValue i)) (s.fieldScaler i))).setWidth 160)) }

/-- `DEC_CONS` and `DEC_GEN` on a field with at most four value bytes: the bytes as an unsigned big-endian number, times 10 for
scaler −2, times 100 for −1, unscaled for every other scaler, in 32 bits (R111 to R114, R116, R118, R119, R124). -/
def Obligations.DecEnergyIsTheScaledUnsignedValue : Prop :=
  ∀ (s : State) (i : Nat), s.msgLen.toNat ≤ 512 → s.fieldVlen i ≤ 4 →
    (s.fieldAt Config.idCons i → exec .decCons s = .next { s with
      rsp := some (.ok 0
        ((BitVec.ofNat 32 (bigEndian (s.fieldValue i) * energyFactor (s.fieldScaler i))).setWidth 160)) }) ∧
    (s.fieldAt Config.idGen i → exec .decGen s = .next { s with
      rsp := some (.ok 0
        ((BitVec.ofNat 32 (bigEndian (s.fieldValue i) * energyFactor (s.fieldScaler i))).setWidth 160)) })

/-- A value byte count of 5 to 15 at the first match: each decode command ends with `DEC_LEN_INVALID`, no value and no state
change (R121, R194). -/
def Obligations.LongValueIsRefusedByStatus : Prop :=
  ∀ (s : State) (i : Nat), s.msgLen.toNat ≤ 512 → 4 < s.fieldVlen i →
    (s.fieldAt Config.idPower i → exec .decPower s = .next { s with rsp := some (.fail .decLenInvalid) }) ∧
    (s.fieldAt Config.idCons i → exec .decCons s = .next { s with rsp := some (.fail .decLenInvalid) }) ∧
    (s.fieldAt Config.idGen i → exec .decGen s = .next { s with rsp := some (.fail .decLenInvalid) })

/-- The search returns the first offset inside the bound at which the identifier stands, and nothing when there is none (R111). -/
def Obligations.FindReturnsTheFirstMatch : Prop :=
  ∀ m id : List Byte,
    (∀ i, find m id = some i ↔
      i + 10 < m.length ∧ (m.drop i).take 5 = id ∧ ∀ j, j < i → (m.drop j).take 5 ≠ id) ∧
    (find m id = none ↔ ∀ i, i + 10 < m.length → (m.drop i).take 5 ≠ id)

/-- The accumulator holds the value bytes as a big-endian number, sign-extended in the signed path and zero-extended in the
unsigned path; 0 for no bytes (R113, R72). -/
def Obligations.AccumIsTheBigEndianValue : Prop :=
  ∀ (m : List Byte) (i n : Nat), n ≤ 4 →
    (accum m i n true).toInt = signedBigEndian ((m.drop (i + 6)).take n) ∧
    (accum m i n false).toNat = bigEndian ((m.drop (i + 6)).take n)

/-- The decimal shift is one multiplication by `10^sc` kept to 32 bits, or one division by `10^(−sc)` truncating toward zero; it
gives 0 for scalers below −9 and above 31 (R115, R123). -/
def Obligations.ScaleSignedIsOneDecimalShift : Prop :=
  ∀ (v : Word) (sc : Int), scaleSigned v sc = BitVec.ofInt 32 (decimalShift v.toInt sc) ∧
    (sc ≤ -10 → scaleSigned v sc = 0) ∧ (32 ≤ sc → scaleSigned v sc = 0)

/-- A complete field with no earlier occurrence of its identifier, in a message that ends with the end marker, is found and
decoded: the search bound never hides it (R124, R231). -/
def Obligations.FieldBeforeTheMarkerIsDecoded : Prop :=
  ∀ (pre value id mid : List Byte) (tl sc : Byte), id.length = 5 → value.length ≤ 4 →
    (tl.extractLsb' 0 4).toNat = value.length →
    (∀ j, j < pre.length →
      ((pre ++ id ++ [tl] ++ value ++ [sc] ++ mid ++ Config.endMarker).drop j).take 5 ≠ id) →
    decodeField id true scaleSigned (pre ++ id ++ [tl] ++ value ++ [sc] ++ mid ++ Config.endMarker) =
      .ok (BitVec.ofInt 32 (decimalShift (signedBigEndian value) sc.toInt)) ∧
    decodeField id false scaleEnergy (pre ++ id ++ [tl] ++ value ++ [sc] ++ mid ++ Config.endMarker) =
      .ok (BitVec.ofNat 32 (bigEndian value * energyFactor sc.toInt))

/-- A decode command reads only the message: its answer depends on `msg_len` and on the bytes below it alone (R110, R33). -/
def Obligations.DecodeReadsOnlyTheMessage : Prop :=
  ∀ (i : Instr) (s s' : State), i ∈ decAll → s.msgLen = s'.msgLen → s.msgLen.toNat ≤ 512 →
    (∀ a, a < s.msgLen.toNat → s.bufByte a = s'.bufByte a) →
    ∃ t t', exec i s = .next t ∧ exec i s' = .next t' ∧ t.rsp = t'.rsp

/-- MODEL'S CHOICE (log entry 4): in a state whose `msg_len` exceeds the buffer, which R20 rules out, the decode commands stop,
since `MemRead` is defined inside the buffer only (R13). -/
def Obligations.DecodePastTheBufferStops : Prop :=
  ∀ (i : Instr) (s : State), i ∈ decAll → 512 < s.msgLen.toNat →
    exec i s = .fault (.outsideBuffer 0 s.msgLen.toNat)

/-! ## Wire packet codec -/

/-- `PKT_ENCODE` answers the twenty bytes of the five little-endian fields in declared order, bit for bit its operand port, and
writes no state (R141, R75). -/
def Obligations.PktEncodeWritesLittleEndianFields : Prop :=
  ∀ (power cons gen batt counter : Word) (s : State),
    ∃ d : Lanes, exec (.pktEncode power cons gen batt counter) s = .next { s with rsp := some (.ok 0 d) } ∧
      d = (encode (.pktEncode power cons gen batt counter)).data ∧
      ∀ k, k < 4 →
        lane d k = power.extractLsb' (8 * k) 8 ∧ lane d (4 + k) = cons.extractLsb' (8 * k) 8 ∧
        lane d (8 + k) = gen.extractLsb' (8 * k) 8 ∧ lane d (12 + k) = batt.extractLsb' (8 * k) 8 ∧
        lane d (16 + k) = counter.extractLsb' (8 * k) 8

/-- `PKT_DECODE` of twenty bytes answers the five fields, the byte at the lowest offset least significant, and writes no state;
every byte pattern decodes (R142). -/
def Obligations.PktDecodeReadsLittleEndianFields : Prop :=
  ∀ (p : List Byte) (s : State), (Instr.pktDecode 20 p).wellFormed = true →
    ∃ d : Lanes, exec (.pktDecode 20 p) s = .next { s with rsp := some (.ok 0 d) } ∧
      ∀ o, o < 5 → ∀ k, k < 4 → some ((d.extractLsb' (32 * o) 32).extractLsb' (8 * k) 8) = p[4 * o + k]?

/-- `PKT_DECODE` with a length other than 20 ends with `LENGTH_MISMATCH`, whatever the bytes, with no field and no state change
(R143, R193). -/
def Obligations.PktDecodeReportsLengthMismatch : Prop :=
  ∀ (n : Byte) (p : List Byte) (s : State), n ≠ 20 →
    exec (.pktDecode n p) s = .next { s with rsp := some (.fail .lengthMismatch) } ∧
    (Response.fail .lengthMismatch).status = 1 ∧ (Response.fail .lengthMismatch).flag = 0 ∧
    (Response.fail .lengthMismatch).data = 0

/-- Round trip of the codec: decoding an encoded packet answers the same five words, and encoding what a packet decodes to
answers the packet's bytes again (R144). -/
def Obligations.PacketRoundTrip : Prop :=
  (∀ (power cons gen batt counter : Word) (s : State),
    ∃ d e : Lanes, exec (.pktEncode power cons gen batt counter) s = .next { s with rsp := some (.ok 0 d) } ∧
      exec (.pktDecode 20 (lanes d 20)) s = .next { s with rsp := some (.ok 0 e) } ∧
      e.extractLsb' 0 32 = power ∧ e.extractLsb' 32 32 = cons ∧ e.extractLsb' 64 32 = gen ∧
      e.extractLsb' 96 32 = batt ∧ e.extractLsb' 128 32 = counter) ∧
  (∀ (p : List Byte) (s : State), p.length = 20 →
    ∃ d e : Lanes, exec (.pktDecode 20 p) s = .next { s with rsp := some (.ok 0 d) } ∧
      exec (.pktEncode (d.extractLsb' 0 32) (d.extractLsb' 32 32) (d.extractLsb' 64 32) (d.extractLsb' 96 32)
        (d.extractLsb' 128 32)) s = .next { s with rsp := some (.ok 0 e) } ∧
      lanes e 20 = p)

/-! ## Sequence gap tracker -/

/-- The first observation records the counter, reports gap 0 with `first = 1` and leaves the missed count (R162, R168). -/
def Obligations.FirstObservationCountsNoGap : Prop :=
  ∀ (c : Word) (s : State), s.seenAny = false →
    exec (.seqObserve c) s = .next { s with
      lastCounter := c, seenAny := true
      rsp := some (.ok 1 (BitVec.ofNat 160 (2 ^ 32 * s.missedCount.toNat))) }

/-- A later counter beyond the expected one: the gap is the number of counters skipped, reported unclipped and added to the
missed count with saturation (R163, R166, R168). -/
def Obligations.SkippedCountersAreAGap : Prop :=
  ∀ (c : Word) (s : State), s.seenAny = true → s.lastCounter.toNat + 1 < c.toNat →
    ∃ m : Word, m.toNat = min (s.missedCount.toNat + (c.toNat - (s.lastCounter.toNat + 1))) 0xFFFFFFFF ∧
      exec (.seqObserve c) s = .next { s with
        lastCounter := c, missedCount := m
        rsp := some (.ok 0 (BitVec.ofNat 160 (c.toNat - (s.lastCounter.toNat + 1) + 2 ^ 32 * m.toNat))) }

/-- A later counter not beyond the expected one (the successor, a duplicate, a reorder, a restart) reports gap 0 and leaves the
missed count; the last counter still moves (R164). The sum does not wrap: after `0xFFFFFFFF` this is every counter (R165). -/
def Obligations.NoSkippedCounterIsNoGap : Prop :=
  ∀ (c : Word) (s : State), s.seenAny = true →
    c.toNat ≤ s.lastCounter.toNat + 1 ∨ s.lastCounter = 0xFFFFFFFF →
    exec (.seqObserve c) s = .next { s with
      lastCounter := c
      rsp := some (.ok 0 (BitVec.ofNat 160 (2 ^ 32 * s.missedCount.toNat))) }

/-- `SEQ_RESET` makes the tracker as after reset and answers `OK`; all else stays (R167). -/
def Obligations.SeqResetMakesAFreshTracker : Prop :=
  ∀ s : State, exec .seqReset s =
    .next { s with seenAny := false, missedCount := 0, lastCounter := 0, rsp := some (.ok 0 0) }

/-- A fresh tracker that observes a strictly increasing sequence ends with the number of counters in its span that it did not
observe added to the count, saturated (R169 (d), R166). -/
def Obligations.IncreasingCountersCountTheMissing : Prop :=
  ∀ (s : State) (c : Word) (cs : List Word), s.seenAny = false →
    (c :: cs).Pairwise (fun a b => a.toNat < b.toNat) →
    ∃ t, execAll ((c :: cs).map .seqObserve) s = .next t ∧ t.seenAny = true ∧
      t.lastCounter = (c :: cs).getLast (List.cons_ne_nil _ _) ∧
      t.missedCount.toNat =
        min (s.missedCount.toNat + ((t.lastCounter.toNat - c.toNat) - cs.length)) 0xFFFFFFFF

/-- Short of `rst` and of `SEQ_RESET`, no edge decreases the missed count and none clears `seen_any` (R26, R27, R169 (b)). -/
def Obligations.MissedCountNeverDecreases : Prop :=
  ∀ s t : State, step s = .next t → s.portIn.rst = false → ¬ s.accepts .seqReset →
    s.missedCount.toNat ≤ t.missedCount.toNat ∧ (s.seenAny = true → t.seenAny = true)

/-- Commands read only the items listed for them (R33, the column "read by"): each clause takes two states that agree on the
items its command reads and differ in any other. `FA_FEED` reads `buf` and `idx`; `FA_READ` reads the one byte of `buf` it
answers; the decode commands read `msg_len` and the bytes of `buf` below it; `SEQ_OBSERVE` reads the tracker; `FA_RESET` and
`SEQ_RESET` write constants; the codec, `NOP` and the reserved opcodes read nothing. `buf` is compared as it reads, an unwritten
byte being a free value (log entry 1). -/
def Obligations.UnitsReadOnlyTheirOwnState : Prop :=
  (∀ (b : Byte) (s s' : State), s.idx = s'.idx → (∀ a, a < 512 → s.bufByte a = s'.bufByte a) →
    ∃ t t', exec (.faFeed b) s = .next t ∧ exec (.faFeed b) s' = .next t' ∧ t.rsp = t'.rsp ∧ t.idx = t'.idx ∧
      (∀ a, a < 512 → t.bufByte a = t'.bufByte a) ∧
      (t.msgLen = t'.msgLen ∨ t.msgLen = s.msgLen ∧ t'.msgLen = s'.msgLen)) ∧
  (∀ (a : BitVec 9) (s s' : State), s.bufByte a.toNat = s'.bufByte a.toNat →
    ∃ r, exec (.faRead a) s = .next { s with rsp := some r } ∧ exec (.faRead a) s' = .next { s' with rsp := some r }) ∧
  (∀ (i : Instr) (s s' : State), i ∈ decAll → s.msgLen = s'.msgLen → s.msgLen.toNat ≤ 512 →
    (∀ a, a < s.msgLen.toNat → s.bufByte a = s'.bufByte a) →
    ∃ r, exec i s = .next { s with rsp := some r } ∧ exec i s' = .next { s' with rsp := some r }) ∧
  (∀ (c : Word) (s s' : State), s.lastCounter = s'.lastCounter → s.missedCount = s'.missedCount →
    s.seenAny = s'.seenAny →
    ∃ t t', exec (.seqObserve c) s = .next t ∧ exec (.seqObserve c) s' = .next t' ∧ t.rsp = t'.rsp ∧
      t.lastCounter = t'.lastCounter ∧ t.missedCount = t'.missedCount ∧ t.seenAny = t'.seenAny) ∧
  (∀ s s' : State, ∃ r,
    exec .faReset s = .next { s with idx := 0, msgLen := 0, rsp := some r } ∧
    exec .faReset s' = .next { s' with idx := 0, msgLen := 0, rsp := some r }) ∧
  (∀ s s' : State, ∃ r,
    exec .seqReset s = .next { s with seenAny := false, missedCount := 0, lastCounter := 0, rsp := some r } ∧
    exec .seqReset s' = .next { s' with seenAny := false, missedCount := 0, lastCounter := 0, rsp := some r }) ∧
  (∀ (i : Instr) (s s' : State), i.opcode ∈ ([0x0, 0x7, 0x8, 0xB, 0xC, 0xD, 0xE, 0xF] : List (BitVec 4)) →
    ∃ r, exec i s = .next { s with rsp := some r } ∧ exec i s' = .next { s' with rsp := some r })

/-! ## System -/

/-- `NOP` answers `OK` with no flag and no data and leaves the state as it was (R180). -/
def Obligations.NopOnlyAnswersOk : Prop :=
  ∀ s : State, exec .nop s = .next { s with rsp := some (.ok 0 0) }

/-- The five reserved opcodes answer `ILLEGAL_CMD`, code 3, and leave the state as it was (R181, R66). -/
def Obligations.ReservedOpcodesAnswerIllegalCmd : Prop :=
  (∀ (i : Instr) (s : State), i ∈ ([.reservedB, .reservedC, .reservedD, .reservedE, .reservedF] : List Instr) →
    exec i s = .next { s with rsp := some (.fail .illegalCmd) }) ∧
  (Response.fail .illegalCmd).status = 3
end

