-- ==== Sys2Proof/Laws/State.lean ====
section
/-! SUPPORT. One lemma per field of State and per named update: what the update leaves in the field, true by rfl. -/

namespace Sys2Proof.Machine

variable (s : State)

@[simp] theorem answer_buf (r : Response) : (s.answer r).buf = s.buf := rfl
@[simp] theorem answer_idx (r : Response) : (s.answer r).idx = s.idx := rfl
@[simp] theorem answer_msgLen (r : Response) : (s.answer r).msgLen = s.msgLen := rfl
@[simp] theorem answer_lastCounter (r : Response) : (s.answer r).lastCounter = s.lastCounter := rfl
@[simp] theorem answer_missedCount (r : Response) : (s.answer r).missedCount = s.missedCount := rfl
@[simp] theorem answer_seenAny (r : Response) : (s.answer r).seenAny = s.seenAny := rfl
@[simp] theorem answer_rsp (r : Response) : (s.answer r).rsp = some r := rfl
@[simp] theorem answer_wait (r : Response) : (s.answer r).wait = s.wait := rfl
@[simp] theorem answer_draws (r : Response) : (s.answer r).draws = s.draws := rfl
@[simp] theorem answer_edges (r : Response) : (s.answer r).edges = s.edges := rfl

@[simp] theorem answerOk_buf (f : BitVec 2) (d : Lanes) : (s.answerOk f d).buf = s.buf := rfl
@[simp] theorem answerOk_idx (f : BitVec 2) (d : Lanes) : (s.answerOk f d).idx = s.idx := rfl
@[simp] theorem answerOk_msgLen (f : BitVec 2) (d : Lanes) : (s.answerOk f d).msgLen = s.msgLen := rfl
@[simp] theorem answerOk_lastCounter (f : BitVec 2) (d : Lanes) : (s.answerOk f d).lastCounter = s.lastCounter := rfl
@[simp] theorem answerOk_missedCount (f : BitVec 2) (d : Lanes) : (s.answerOk f d).missedCount = s.missedCount := rfl
@[simp] theorem answerOk_seenAny (f : BitVec 2) (d : Lanes) : (s.answerOk f d).seenAny = s.seenAny := rfl
@[simp] theorem answerOk_rsp (f : BitVec 2) (d : Lanes) : (s.answerOk f d).rsp = some (.ok f d) := rfl
@[simp] theorem answerOk_wait (f : BitVec 2) (d : Lanes) : (s.answerOk f d).wait = s.wait := rfl
@[simp] theorem answerOk_draws (f : BitVec 2) (d : Lanes) : (s.answerOk f d).draws = s.draws := rfl
@[simp] theorem answerOk_edges (f : BitVec 2) (d : Lanes) : (s.answerOk f d).edges = s.edges := rfl

@[simp] theorem raise_buf (st : FailStatus) : (raise s st).buf = s.buf := rfl
@[simp] theorem raise_idx (st : FailStatus) : (raise s st).idx = s.idx := rfl
@[simp] theorem raise_msgLen (st : FailStatus) : (raise s st).msgLen = s.msgLen := rfl
@[simp] theorem raise_lastCounter (st : FailStatus) : (raise s st).lastCounter = s.lastCounter := rfl
@[simp] theorem raise_missedCount (st : FailStatus) : (raise s st).missedCount = s.missedCount := rfl
@[simp] theorem raise_seenAny (st : FailStatus) : (raise s st).seenAny = s.seenAny := rfl
@[simp] theorem raise_rsp (st : FailStatus) : (raise s st).rsp = some (.fail st) := rfl
@[simp] theorem raise_wait (st : FailStatus) : (raise s st).wait = s.wait := rfl
@[simp] theorem raise_draws (st : FailStatus) : (raise s st).draws = s.draws := rfl
@[simp] theorem raise_edges (st : FailStatus) : (raise s st).edges = s.edges := rfl

@[simp] theorem completeMessage_buf (n : Nat) (b : Bool) : (completeMessage s n b).buf = s.buf := rfl
@[simp] theorem completeMessage_idx (n : Nat) (b : Bool) : (completeMessage s n b).idx = 0 := rfl
@[simp] theorem completeMessage_msgLen (n : Nat) (b : Bool) : (completeMessage s n b).msgLen = BitVec.ofNat 10 n := rfl
@[simp] theorem completeMessage_lastCounter (n : Nat) (b : Bool) : (completeMessage s n b).lastCounter = s.lastCounter := rfl
@[simp] theorem completeMessage_missedCount (n : Nat) (b : Bool) : (completeMessage s n b).missedCount = s.missedCount := rfl
@[simp] theorem completeMessage_seenAny (n : Nat) (b : Bool) : (completeMessage s n b).seenAny = s.seenAny := rfl
@[simp] theorem completeMessage_rsp (n : Nat) (b : Bool) : (completeMessage s n b).rsp = some (.ok (feedFlag true b) (lowResult (BitVec.ofNat 10 n))) := rfl
@[simp] theorem completeMessage_wait (n : Nat) (b : Bool) : (completeMessage s n b).wait = s.wait := rfl
@[simp] theorem completeMessage_draws (n : Nat) (b : Bool) : (completeMessage s n b).draws = s.draws := rfl
@[simp] theorem completeMessage_edges (n : Nat) (b : Bool) : (completeMessage s n b).edges = s.edges := rfl

@[simp] theorem keepAccumulating_buf (n : Nat) : (keepAccumulating s n).buf = s.buf := rfl
@[simp] theorem keepAccumulating_idx (n : Nat) : (keepAccumulating s n).idx = BitVec.ofNat 10 n := rfl
@[simp] theorem keepAccumulating_msgLen (n : Nat) : (keepAccumulating s n).msgLen = s.msgLen := rfl
@[simp] theorem keepAccumulating_lastCounter (n : Nat) : (keepAccumulating s n).lastCounter = s.lastCounter := rfl
@[simp] theorem keepAccumulating_missedCount (n : Nat) : (keepAccumulating s n).missedCount = s.missedCount := rfl
@[simp] theorem keepAccumulating_seenAny (n : Nat) : (keepAccumulating s n).seenAny = s.seenAny := rfl
@[simp] theorem keepAccumulating_rsp (n : Nat) : (keepAccumulating s n).rsp = some (.ok (feedFlag false false) 0) := rfl
@[simp] theorem keepAccumulating_wait (n : Nat) : (keepAccumulating s n).wait = s.wait := rfl
@[simp] theorem keepAccumulating_draws (n : Nat) : (keepAccumulating s n).draws = s.draws := rfl
@[simp] theorem keepAccumulating_edges (n : Nat) : (keepAccumulating s n).edges = s.edges := rfl

@[simp] theorem sampled_buf : (s.sampled).buf = s.buf := rfl
@[simp] theorem sampled_idx : (s.sampled).idx = s.idx := rfl
@[simp] theorem sampled_msgLen : (s.sampled).msgLen = s.msgLen := rfl
@[simp] theorem sampled_lastCounter : (s.sampled).lastCounter = s.lastCounter := rfl
@[simp] theorem sampled_missedCount : (s.sampled).missedCount = s.missedCount := rfl
@[simp] theorem sampled_seenAny : (s.sampled).seenAny = s.seenAny := rfl
@[simp] theorem sampled_rsp : (s.sampled).rsp = s.rsp := rfl
@[simp] theorem sampled_wait : (s.sampled).wait = s.wait := rfl
@[simp] theorem sampled_draws : (s.sampled).draws = s.draws + 1 := rfl
@[simp] theorem sampled_edges : (s.sampled).edges = s.edges.tail := rfl

@[simp] theorem takeReset_buf : (s.takeReset).buf = [] := rfl
@[simp] theorem takeReset_idx : (s.takeReset).idx = 0 := rfl
@[simp] theorem takeReset_msgLen : (s.takeReset).msgLen = 0 := rfl
@[simp] theorem takeReset_lastCounter : (s.takeReset).lastCounter = 0 := rfl
@[simp] theorem takeReset_missedCount : (s.takeReset).missedCount = 0 := rfl
@[simp] theorem takeReset_seenAny : (s.takeReset).seenAny = false := rfl
@[simp] theorem takeReset_rsp : (s.takeReset).rsp = none := rfl
@[simp] theorem takeReset_wait : (s.takeReset).wait = 0 := rfl
@[simp] theorem takeReset_draws : (s.takeReset).draws = s.draws := rfl
@[simp] theorem takeReset_edges : (s.takeReset).edges = s.edges := rfl

@[simp] theorem withCommand_buf (c : Command) : (s.withCommand c).buf = s.buf := rfl
@[simp] theorem withCommand_idx (c : Command) : (s.withCommand c).idx = s.idx := rfl
@[simp] theorem withCommand_msgLen (c : Command) : (s.withCommand c).msgLen = s.msgLen := rfl
@[simp] theorem withCommand_lastCounter (c : Command) : (s.withCommand c).lastCounter = s.lastCounter := rfl
@[simp] theorem withCommand_missedCount (c : Command) : (s.withCommand c).missedCount = s.missedCount := rfl
@[simp] theorem withCommand_seenAny (c : Command) : (s.withCommand c).seenAny = s.seenAny := rfl
@[simp] theorem withCommand_rsp (c : Command) : (s.withCommand c).rsp = none := rfl
@[simp] theorem withCommand_wait (c : Command) : (s.withCommand c).wait = 0 := rfl
@[simp] theorem withCommand_draws (c : Command) : (s.withCommand c).draws = s.draws := rfl
@[simp] theorem withCommand_edges (c : Command) : (s.withCommand c).edges = PortIn.present c :: s.edges := rfl

end Sys2Proof.Machine
end

