-- ==== Sys2Proof/Laws/Memory.lean ====
section
/-! SUPPORT. The laws of the message buffer: a read after a write, the canonical form, and what `MemRead` and `MemWrite` answer. -/

namespace Sys2Proof.Machine

@[simp] theorem lookup_nil (a : Nat) : Memory.lookup [] a = none := rfl

theorem lookup_cons (x : Nat) (b : Byte) (m : Memory) (a : Nat) :
    Memory.lookup ((x, b) :: m) a = if a = x then some b else Memory.lookup m a := rfl

/-- A read after a write: the byte written at its index, every other index as before. -/
theorem lookup_write (m : Memory) (a : Nat) (v : Byte) (x : Nat) :
    Memory.lookup (Memory.write m a v) x = if x = a then some v else Memory.lookup m x := by
  induction m with
  | nil => simp [Memory.write, lookup_cons]
  | cons c m ih =>
    obtain ⟨y, b⟩ := c
    simp only [Memory.write]
    split
    · simp [lookup_cons]
    · split
      · subst_vars; simp only [lookup_cons]; split <;> rfl
      · simp only [lookup_cons, ih]; grind

theorem write_key (m : Memory) (a : Nat) (v : Byte) (c : Host.Cell) (h : c ∈ Memory.write m a v) :
    c = (a, v) ∨ c ∈ m := by
  induction m with
  | nil => simpa [Memory.write] using h
  | cons d m ih =>
    obtain ⟨y, b⟩ := d
    simp only [Memory.write] at h
    split at h
    · simpa using h
    · split at h
      · simp only [List.mem_cons] at h ⊢; tauto
      · simp only [List.mem_cons] at h ⊢
        rcases h with h | h
        · exact .inr (.inl h)
        · rcases ih h with h | h
          · exact .inl h
          · exact .inr (.inr h)

/-- A write inside the address space keeps the canonical form. -/
theorem write_wf (m : Memory) (a : Nat) (v : Byte) (hm : Memory.wf m) (ha : a < Config.cap) :
    Memory.wf (Memory.write m a v) := by
  obtain ⟨hs, hb⟩ := hm
  refine ⟨?_, fun c hc => ?_⟩
  · induction m with
    | nil => simp [Memory.write]
    | cons d m ih =>
      obtain ⟨y, b⟩ := d
      obtain ⟨hd, ht⟩ := List.pairwise_cons.mp hs
      simp only [Memory.write]
      split
      · rename_i hlt
        refine List.pairwise_cons.mpr ⟨fun c hc => ?_, hs⟩
        rcases List.mem_cons.mp hc with rfl | hc
        · exact hlt
        · exact lt_trans hlt (hd c hc)
      · split
        · subst_vars; exact List.pairwise_cons.mpr ⟨fun c hc => hd c hc, ht⟩
        · refine List.pairwise_cons.mpr ⟨fun c hc => ?_, ih ht fun c hc => hb c (List.mem_cons_of_mem _ hc)⟩
          rcases write_key m a v c hc with rfl | hc
          · show y < a; omega
          · exact hd c hc
  · rcases write_key m a v c hc with rfl | hc
    · exact ha
    · exact hb c hc

theorem bufByte_eq (s : State) (a : Nat) :
    s.bufByte a = (Memory.lookup s.buf a).getD (Config.unwrittenByte s.draws a) := rfl

/-- What a read of one byte depends on: the buffer and the draw index. -/
theorem bufByte_congr (s t : State) (a : Nat) (hb : t.buf = s.buf) (hd : t.draws = s.draws) :
    t.bufByte a = s.bufByte a := by
  rw [bufByte_eq, bufByte_eq, hb, hd]

@[simp] theorem bufBytes_length (s : State) (a n : Nat) : (s.bufBytes a n).length = n := by
  simp [State.bufBytes]

theorem bufBytes_congr (s t : State) (a n : Nat) (h : ∀ x, a ≤ x → x < a + n → t.bufByte x = s.bufByte x) :
    t.bufBytes a n = s.bufBytes a n := by
  refine List.map_congr_left fun k hk => h _ (by omega) ?_
  have := List.mem_range.mp hk
  omega

/-- `MemRead` inside the buffer (R13). -/
theorem memRead_ok (s : State) (a n : Nat) (h : a + n ≤ Config.cap) : s.memRead a n = .ok (s.bufBytes a n) :=
  if_pos h

/-- `MemRead` past the end of the buffer (R13). -/
theorem memRead_error (s : State) (a n : Nat) (h : ¬ a + n ≤ Config.cap) :
    s.memRead a n = .error (.outsideBuffer a n) :=
  if_neg h

/-- The state after one byte is stored at index `a`. -/
def State.stored (s : State) (a : Nat) (v : Byte) : State :=
  { s with buf := Memory.write s.buf a v }

/-- `MemWrite` of one byte inside the buffer (R13). -/
theorem memWrite_ok (s : State) (a : Nat) (v : Byte) (h : a < Config.cap) : s.memWrite a [v] = .ok (s.stored a v) :=
  if_pos h

@[simp] theorem stored_buf (s : State) (a : Nat) (v : Byte) : (s.stored a v).buf = Memory.write s.buf a v := rfl
@[simp] theorem stored_idx (s : State) (a : Nat) (v : Byte) : (s.stored a v).idx = s.idx := rfl
@[simp] theorem stored_msgLen (s : State) (a : Nat) (v : Byte) : (s.stored a v).msgLen = s.msgLen := rfl
@[simp] theorem stored_lastCounter (s : State) (a : Nat) (v : Byte) : (s.stored a v).lastCounter = s.lastCounter := rfl
@[simp] theorem stored_missedCount (s : State) (a : Nat) (v : Byte) : (s.stored a v).missedCount = s.missedCount := rfl
@[simp] theorem stored_seenAny (s : State) (a : Nat) (v : Byte) : (s.stored a v).seenAny = s.seenAny := rfl
@[simp] theorem stored_rsp (s : State) (a : Nat) (v : Byte) : (s.stored a v).rsp = s.rsp := rfl
@[simp] theorem stored_wait (s : State) (a : Nat) (v : Byte) : (s.stored a v).wait = s.wait := rfl
@[simp] theorem stored_draws (s : State) (a : Nat) (v : Byte) : (s.stored a v).draws = s.draws := rfl
@[simp] theorem stored_edges (s : State) (a : Nat) (v : Byte) : (s.stored a v).edges = s.edges := rfl

/-- Reading one byte after one byte was stored. -/
theorem stored_bufByte (s : State) (a : Nat) (v : Byte) (x : Nat) :
    (s.stored a v).bufByte x = if x = a then v else s.bufByte x := by
  simp only [bufByte_eq, stored_buf, stored_draws, lookup_write]
  split <;> rfl

end Sys2Proof.Machine
end

