-- ==== Sys2Proof/Laws/Commands.lean ====
section
/-! SUPPORT. What each shared operation and each command can answer, said once, so that later proofs need not unfold a meaning. -/

namespace Sys2Proof.Machine

@[simp] theorem cap_eq : Config.cap = 512 := rfl
@[simp] theorem endLen_eq : Config.endLen = 5 := rfl
@[simp] theorem startLen_eq : Config.startLen = 8 := rfl
@[simp] theorem idLen_eq : Config.idLen = 5 := rfl
@[simp] theorem vlenMax_eq : Config.vlenMax = 4 := rfl
@[simp] theorem searchRoom_eq : Config.searchRoom = 10 := rfl
@[simp] theorem pktLen_eq : Config.pktLen = 20 := rfl

@[simp] theorem finish_ok (s : State) : finish (.ok s) = .next s := rfl
@[simp] theorem finish_error (f : Fault) : finish (.error f) = .fault f := rfl

/-! ## Flags -/

/-- The end-marker compare never leaves the buffer for a cursor in range (R92, R48). -/
theorem endMatch_eq (s : State) (i1 : Nat) (h : i1 ≤ 512) :
    endMatch s i1 = .ok (decide (5 ≤ i1) && s.bufBytes (i1 - 5) 5 == Config.endMarker) := by
  unfold endMatch
  by_cases h5 : i1 < 5
  · simp [h5]
  · rw [if_neg (by simpa using h5), memRead_ok _ _ _ (by simp; omega)]
    have : 5 ≤ i1 := by omega
    simp [this, Except.map]

/-- The start check (R96). -/
theorem startOk_eq (s : State) (i1 : Nat) :
    startOk s i1 = .ok (decide (8 ≤ i1) && s.bufBytes 0 8 == Config.startMarker) := by
  unfold startOk
  by_cases h8 : i1 < 8
  · simp [h8]
  · rw [if_neg (by simpa using h8), memRead_ok _ _ _ (by simp)]
    have : 8 ≤ i1 := by omega
    simp [this, Except.map]

/-! ## Frame assembler -/

theorem feedAddress_room (s : State) (h : s.idx.toNat < 512) : feedAddress s = some s.idx.toNat :=
  if_pos h

theorem feedAddress_full (s : State) (h : 512 ≤ s.idx.toNat) : feedAddress s = none :=
  if_neg (by simpa using h)

/-- What follows an append: completion exactly when the end marker stands before the cursor (R91 to R93). -/
theorem afterAppend_eq (s : State) (i1 : Nat) (h : i1 ≤ 512) :
    afterAppend s i1 = .ok (if 5 ≤ i1 ∧ s.bufBytes (i1 - 5) 5 = Config.endMarker then
        completeMessage s i1 (decide (8 ≤ i1) && s.bufBytes 0 8 == Config.startMarker)
      else keepAccumulating s i1) := by
  unfold afterAppend
  rw [endMatch_eq s i1 h, startOk_eq s i1]
  by_cases h5 : 5 ≤ i1 ∧ s.bufBytes (i1 - 5) 5 = Config.endMarker
  · simp [h5.1, h5.2, bind, Except.bind, pure, Except.pure]
  · rw [if_neg h5]
    have : (decide (5 ≤ i1) && s.bufBytes (i1 - 5) 5 == Config.endMarker) = false := by
      simpa [Bool.and_eq_false_iff, imp_iff_not_or] using h5
    simp [this, bind, Except.bind, pure, Except.pure]

/-- `FA_FEED` with room in the buffer (R91). -/
theorem execFaFeed_room (b : Byte) (s : State) (h : s.idx.toNat < 512) :
    execFaFeed b s = .next
      (let t := s.stored s.idx.toNat b
       let i1 := s.idx.toNat + 1
       if 5 ≤ i1 ∧ t.bufBytes (i1 - 5) 5 = Config.endMarker then
         completeMessage t i1 (decide (8 ≤ i1) && t.bufBytes 0 8 == Config.startMarker)
       else keepAccumulating t i1) := by
  unfold execFaFeed
  rw [feedAddress_room s h]
  simp only [memWrite_ok s _ b (show s.idx.toNat < Config.cap from h), bind, Except.bind]
  rw [afterAppend_eq _ _ (by omega)]
  rfl

/-- `FA_FEED` on a full buffer drops the byte (R94). -/
theorem execFaFeed_full (b : Byte) (s : State) (h : 512 ≤ s.idx.toNat) :
    execFaFeed b s = .next (s.answerOk 0 0) := by
  unfold execFaFeed
  rw [feedAddress_full s h]
  rfl

/-- `FA_READ` never leaves the buffer (R48, R98). -/
theorem execFaRead_eq (a : BitVec 9) (s : State) :
    execFaRead a s = .next (s.answerOk 0 (lowResult (s.bufByte a.toNat))) := by
  unfold execFaRead
  have ha := a.isLt
  rw [memRead_ok _ _ _ (by simp; omega)]
  simp [bind, Except.bind, pure, Except.pure, State.bufBytes, seqByte]

/-! ## Field decoder -/

theorem message_ok (s : State) (h : s.msgLen.toNat ≤ 512) : s.message = .ok s.messageBytes :=
  memRead_ok _ _ _ (by simpa using h)

theorem message_error (s : State) (h : 512 < s.msgLen.toNat) : s.message = .error (.outsideBuffer 0 s.msgLen.toNat) :=
  memRead_error _ _ _ (by simpa using h)

/-- The outcome of a decode command whose message is inside the buffer (R117 to R121). -/
def decodeAnswer (s : State) : Except FailStatus Word → State
  | .ok v => s.answerOk 0 (lowResult v)
  | .error st => raise s st

theorem decodeCommand_ok (id : List Byte) (sg : Bool) (scale : Word → Int → Word) (s : State)
    (h : s.msgLen.toNat ≤ 512) :
    decodeCommand id sg scale s = .next (decodeAnswer s (decodeField id sg scale s.messageBytes)) := by
  unfold decodeCommand
  rw [message_ok s h]
  cases hd : decodeField id sg scale s.messageBytes <;>
    simp [hd, bind, Except.bind, pure, Except.pure, decodeAnswer]

theorem decodeCommand_error (id : List Byte) (sg : Bool) (scale : Word → Int → Word) (s : State)
    (h : 512 < s.msgLen.toNat) :
    decodeCommand id sg scale s = .fault (.outsideBuffer 0 s.msgLen.toNat) := by
  unfold decodeCommand
  rw [message_error s h]
  rfl

/-- A decode command answers and writes nothing else, in every state where it does not stop. -/
theorem decodeCommand_next (id : List Byte) (sg : Bool) (scale : Word → Int → Word) (s t : State)
    (h : decodeCommand id sg scale s = .next t) :
    s.msgLen.toNat ≤ 512 ∧ t = decodeAnswer s (decodeField id sg scale s.messageBytes) := by
  by_cases hl : s.msgLen.toNat ≤ 512
  · rw [decodeCommand_ok _ _ _ _ hl] at h
    exact ⟨hl, (Host.Outcome.next.inj h).symm⟩
  · rw [decodeCommand_error _ _ _ _ (by omega)] at h
    cases h

/-! ## What a command can do -/

/-- All that `FA_FEED` can do: drop the byte, complete a message, or go on accumulating (R90). -/
theorem execFaFeed_cases (b : Byte) (s t : State) (h : execFaFeed b s = .next t) :
    (512 ≤ s.idx.toNat ∧ t = s.answerOk 0 0) ∨
    (s.idx.toNat < 512 ∧ (∃ k, t = completeMessage (s.stored s.idx.toNat b) (s.idx.toNat + 1) k) ∧
      5 ≤ s.idx.toNat + 1 ∧ (s.stored s.idx.toNat b).bufBytes (s.idx.toNat + 1 - 5) 5 = Config.endMarker) ∨
    (s.idx.toNat < 512 ∧ t = keepAccumulating (s.stored s.idx.toNat b) (s.idx.toNat + 1) ∧
      ¬ (5 ≤ s.idx.toNat + 1 ∧ (s.stored s.idx.toNat b).bufBytes (s.idx.toNat + 1 - 5) 5 = Config.endMarker)) := by
  by_cases hi : s.idx.toNat < 512
  · rw [execFaFeed_room b s hi] at h
    injection h with h; subst h
    right
    dsimp only; split
    · rename_i h; exact .inl ⟨hi, ⟨_, rfl⟩, h⟩
    · rename_i h; exact .inr ⟨hi, rfl, h⟩
  · rw [execFaFeed_full b s (by omega)] at h
    injection h with h; subst h
    exact .inl ⟨by omega, rfl⟩

/-- All that a command can do: the four commands that write state do their own, every other command only answers (R33). -/
theorem exec_cases (i : Instr) (s t : State) (h : exec i s = .next t) :
    (∃ b, i = .faFeed b ∧ execFaFeed b s = .next t) ∨
    (i = .faReset ∧ t = { s with idx := 0, msgLen := 0 }.answerOk 0 0) ∨
    (∃ c, i = .seqObserve c ∧ execSeqObserve c s = .next t) ∨
    (i = .seqReset ∧ t = { s with seenAny := false, missedCount := 0, lastCounter := 0 }.answerOk 0 0) ∨
    (i.opcode ∉ ([0x1, 0x2, 0x9, 0xA] : List (BitVec 4)) ∧ ∃ r, t = s.answer r) := by
  have dec : ∀ id sg sc, decodeCommand id sg sc s = .next t → ∃ r, t = s.answer r := by
    intro id sg sc hd
    obtain ⟨_, rfl⟩ := decodeCommand_next _ _ _ _ _ hd
    unfold decodeAnswer
    split <;> exact ⟨_, rfl⟩
  cases i <;> simp only [exec] at h
  case faFeed b => exact .inl ⟨b, rfl, h⟩
  case faReset => injection h with h; subst h; exact .inr (.inl ⟨rfl, rfl⟩)
  case seqObserve c => exact .inr (.inr (.inl ⟨c, rfl, h⟩))
  case seqReset => injection h with h; subst h; exact .inr (.inr (.inr (.inl ⟨rfl, rfl⟩)))
  case faRead a => rw [execFaRead_eq] at h; injection h with h; subst h; exact .inr (.inr (.inr (.inr ⟨by simp [Instr.opcode], _, rfl⟩)))
  case pktDecode n p =>
    unfold execPktDecode at h
    split at h <;> (injection h with h; subst h; exact .inr (.inr (.inr (.inr ⟨by simp [Instr.opcode], _, rfl⟩))))
  case decPower => exact .inr (.inr (.inr (.inr ⟨by decide, dec _ _ _ h⟩)))
  case decCons => exact .inr (.inr (.inr (.inr ⟨by decide, dec _ _ _ h⟩)))
  case decGen => exact .inr (.inr (.inr (.inr ⟨by decide, dec _ _ _ h⟩)))
  all_goals (injection h with h; subst h; exact .inr (.inr (.inr (.inr ⟨by simp [Instr.opcode], _, rfl⟩))))

/-! ## Sequences of commands -/

@[simp] theorem execAll_nil (s : State) : execAll [] s = .next s := rfl

theorem execAll_cons_next (i : Instr) (is : List Instr) (s t : State) (h : exec i s = .next t) :
    execAll (i :: is) s = execAll is t := by
  simp [execAll, h]

theorem execAll_append (is js : List Instr) (s t : State) (h : execAll is s = .next t) :
    execAll (is ++ js) s = execAll js t := by
  induction is generalizing s with
  | nil => cases h; rfl
  | cons i is ih =>
    simp only [List.cons_append, execAll] at h ⊢
    split at h <;> first | (exact ih _ h) | (cases h)

/-! ## The clock edge -/

theorem step_reset (s : State) (h : s.portIn.rst = true) : step s = .next s.sampled.takeReset := by
  simp [step, clockEdge, h]

theorem step_busy (s : State) (h : s.portIn.rst = false) (r : Response) (hr : s.rsp = some r) :
    step s = .next (s.sampled.responsePhase s.portIn) := by
  simp [step, clockEdge, h, hr]

theorem step_accept (s : State) (h : s.portIn.rst = false) (hr : s.rsp = none) (hv : s.portIn.cmdValid = true) :
    step s = startWait (exec (decode s.portIn.cmd) s.sampled) := by
  simp [step, clockEdge, h, hr, hv]

theorem step_idle (s : State) (h : s.portIn.rst = false) (hr : s.rsp = none) (hv : s.portIn.cmdValid = false) :
    step s = .next s.sampled := by
  simp [step, clockEdge, h, hr, hv]

theorem startWait_next (x : Result) (t : State) (h : startWait x = .next t) :
    ∃ u, x = .next u ∧ t = { u with wait := Config.latency u.draws } := by
  cases x <;> simp_all [startWait]

/-- All that an edge can do when it answers a next state. -/
theorem step_cases (s t : State) (h : step s = .next t) :
    (s.portIn.rst = true ∧ t = s.sampled.takeReset) ∨
    (s.portIn.rst = false ∧ (∃ r, s.rsp = some r) ∧ t = s.sampled.responsePhase s.portIn) ∨
    (s.portIn.rst = false ∧ s.rsp = none ∧ s.portIn.cmdValid = true ∧
      ∃ u, exec (decode s.portIn.cmd) s.sampled = .next u ∧ t = { u with wait := Config.latency u.draws }) ∨
    (s.portIn.rst = false ∧ s.rsp = none ∧ s.portIn.cmdValid = false ∧ t = s.sampled) := by
  cases hrst : s.portIn.rst with
  | true => rw [step_reset s hrst] at h; exact .inl ⟨rfl, (Host.Outcome.next.inj h).symm⟩
  | false =>
    cases hr : s.rsp with
    | some r =>
      rw [step_busy s hrst r hr] at h
      exact .inr (.inl ⟨rfl, ⟨r, rfl⟩, (Host.Outcome.next.inj h).symm⟩)
    | none =>
      cases hv : s.portIn.cmdValid with
      | true =>
        rw [step_accept s hrst hr hv] at h
        exact .inr (.inr (.inl ⟨rfl, rfl, rfl, startWait_next _ _ h⟩))
      | false =>
        rw [step_idle s hrst hr hv] at h
        exact .inr (.inr (.inr ⟨rfl, rfl, rfl, (Host.Outcome.next.inj h).symm⟩))

end Sys2Proof.Machine
end

