-- ==== Sys2Proof/Laws/PerInstr.lean ====
section
/-! SUPPORT. The per-instruction family of LAWS.json: each command is encoded under its own opcode and decodes from its encoding to
a command of that opcode (spec 30_encoding.md R63). -/

namespace Sys2Proof.Laws.Opcode

/-- The opcode survives encoding and decoding (R63). -/
def Statement (i : Instr) : Prop :=
  (encode i).op = i.opcode ∧ (decode (encode i)).opcode = i.opcode

theorem nop : Statement .nop := ⟨rfl, rfl⟩
theorem faFeed (b : Byte) : Statement (.faFeed b) := ⟨rfl, rfl⟩
theorem faReset : Statement .faReset := ⟨rfl, rfl⟩
theorem faRead (a : BitVec 9) : Statement (.faRead a) := ⟨rfl, rfl⟩
theorem decPower : Statement .decPower := ⟨rfl, rfl⟩
theorem decCons : Statement .decCons := ⟨rfl, rfl⟩
theorem decGen : Statement .decGen := ⟨rfl, rfl⟩
theorem pktEncode (p c g b k : Word) : Statement (.pktEncode p c g b k) := ⟨rfl, rfl⟩
theorem pktDecode (n : Byte) (p : List Byte) : Statement (.pktDecode n p) := ⟨rfl, rfl⟩
theorem seqObserve (c : Word) : Statement (.seqObserve c) := ⟨rfl, rfl⟩
theorem seqReset : Statement .seqReset := ⟨rfl, rfl⟩
theorem reservedB : Statement .reservedB := ⟨rfl, rfl⟩
theorem reservedC : Statement .reservedC := ⟨rfl, rfl⟩
theorem reservedD : Statement .reservedD := ⟨rfl, rfl⟩
theorem reservedE : Statement .reservedE := ⟨rfl, rfl⟩
theorem reservedF : Statement .reservedF := ⟨rfl, rfl⟩

end Sys2Proof.Laws.Opcode
end

