-- ==== Sys2Proof/Tests/Slice0.lean ====
section
/-! SUPPORT. The model's own tests. The words are written out from the opcode and operand tables (spec 30_encoding.md R63, R68), the
expected results are those of spec/95_test_vectors.md (the vector is named in each comment), and for every statement with
hypotheses a witness shows that they can be met together. -/

namespace Sys2Proof.Tests

open Sys2Proof Sys2Proof.Machine

/-! ## Well-formedness: each check refuses an ill-formed term -/

theorem test_wf_refuses_too_many_bytes : (Instr.pktDecode 2 [1, 2, 3]).wellFormed = false := by decide
theorem test_wf_refuses_too_few_bytes : (Instr.pktDecode 20 [1, 2, 3]).wellFormed = false := by decide
theorem test_wf_takes_twenty_of_255 : (Instr.pktDecode 255 (List.replicate 20 7)).wellFormed = true := by decide

/-! ## Decoding: one written-out word per command -/

theorem test_decode_nop : decode { op := 0b0000, len := 0xFF, data := 0xFFFF } = .nop := by decide  -- V-SY-2
theorem test_decode_feed : decode { op := 0b0001, len := 0xFF, data := 0xFFFFFF1A } = .faFeed 0x1A := by decide  -- R62
theorem test_decode_fa_reset : decode { op := 0b0010, len := 0, data := 0 } = .faReset := by decide  -- V-FA-25
theorem test_decode_read : decode { op := 0b0011, len := 0, data := 0x20E } = .faRead 0x00E := by decide  -- V-FA-23
theorem test_decode_power : decode { op := 0b0100, len := 0, data := 0 } = .decPower := by decide
theorem test_decode_cons : decode { op := 0b0101, len := 0, data := 0 } = .decCons := by decide
theorem test_decode_gen : decode { op := 0b0110, len := 0, data := 0 } = .decGen := by decide
theorem test_decode_pkt_encode :  -- V-PK-1
    decode { op := 0b0111, len := 0, data := 0x7406CCCCD000000004145851FC2F00000 } =
      .pktEncode 0xC2F00000 0x4145851F 0x00000000 0x406CCCCD 7 := by decide
theorem test_decode_pkt_decode :  -- S7: nineteen lanes of the packet
    decode { op := 0b1000, len := 0x13, data := 0x7406CCCCD000000004145851FC2F00000 } =
      .pktDecode 19 [0x00, 0x00, 0xF0, 0xC2, 0x1F, 0x85, 0x45, 0x41, 0x00, 0x00, 0x00, 0x00, 0xCD, 0xCC, 0x6C, 0x40,
        0x07, 0x00, 0x00] := by decide
theorem test_decode_observe : decode { op := 0b1001, len := 0, data := 0x100000008 } = .seqObserve 8 := by decide  -- V-SQ-16
theorem test_decode_seq_reset : decode { op := 0b1010, len := 0, data := 0 } = .seqReset := by decide  -- V-SQ-14
theorem test_decode_reserved_b : decode { op := 0b1011, len := 0, data := 0 } = .reservedB := by decide  -- V-SY-3
theorem test_decode_reserved_c : decode { op := 0b1100, len := 0, data := 0 } = .reservedC := by decide  -- V-SY-4
theorem test_decode_reserved_d : decode { op := 0b1101, len := 0, data := 0 } = .reservedD := by decide  -- V-SY-4
theorem test_decode_reserved_e : decode { op := 0b1110, len := 0, data := 0 } = .reservedE := by decide  -- V-SY-4
theorem test_decode_reserved_f : decode { op := 0b1111, len := 0x14, data := 0x1B } = .reservedF := by decide  -- V-SY-5
theorem test_decode_word_refuses : decodeWord 3 0 = .error .noOpcode ∧ decodeWord 200 (2 ^ 172) = .error .tooManyBits := by
  exact ⟨rfl, rfl⟩
theorem test_word_round_trip : Command.ofWord (Command.toWord { op := 9, len := 0x14, data := 0x100000008 }) =
    { op := 9, len := 0x14, data := 0x100000008 } := by decide
theorem test_pseudo_commands :
    pktDecodeAll [1, 2, 3] = some (.pktDecode 3 [1, 2, 3]) ∧ feeds [1, 2] = [.faFeed 1, .faFeed 2] := by
  decide  -- R78
/-- More bytes than an `n` of R68 can count: 276 bytes are not taken for 20 (log entry 12). -/
theorem test_pkt_decode_all_too_long : pktDecodeAll (List.replicate 276 0) = none :=
  if_neg (by rw [List.length_replicate]; decide)
theorem test_encoding_text :  -- S7 and V-PK-1
    encodingText { op := 8, len := 0x13, data := 0x7406CCCCD000000004145851FC2F00000 } =
      "8/13/7406CCCCD000000004145851FC2F00000" := by decide
theorem test_asm_text : (Instr.faFeed 0x1B).asmText = "FA_FEED 0x1B" ∧
    (Instr.pktDecode 3 [0, 0xF0, 0xC2]).asmText = "PKT_DECODE n=3, p=00 F0 C2" := by decide

/-! ## Small states and what is looked at of a result -/

/-- A state whose buffer holds `bytes` from index `at0` upwards. -/
def stateWith (at0 : Nat) (bytes : List Byte) (idx msgLen : Index) : State :=
  { State.reset with buf := bytes.zipIdx.map (fun c => (at0 + c.2, c.1)), idx := idx, msgLen := msgLen }

/-- A completed message in place, `msg_len` its length. -/
def messageState (bytes : List Byte) : State :=
  stateWith 0 bytes 0 (BitVec.ofNat 10 bytes.length)

/-- A tracker in the given state. -/
def trackerState (last missed : Word) (seen : Bool) : State :=
  { State.reset with lastCounter := last, missedCount := missed, seenAny := seen }

/-- The state of a result. -/
def nextOf : Result → Option State
  | .next t => some t
  | .fault _ => none
  | .refused _ => none

/-- The response of a result. -/
def rspOf (r : Result) : Option Response :=
  (nextOf r).bind (·.rsp)

/-- The assembler's registers and the response of a result. -/
def feedView (r : Result) : Option (Index × Index × Option Response) :=
  (nextOf r).map fun t => (t.idx, t.msgLen, t.rsp)

/-- The tracker's registers and the response of a result. -/
def trackerView (r : Result) : Option (Word × Word × Bool × Option Response) :=
  (nextOf r).map fun t => (t.lastCounter, t.missedCount, t.seenAny, t.rsp)

/-! ## One step each, against spec/95_test_vectors.md -/

theorem test_nop_ok : rspOf (exec .nop State.reset) = some (.ok 0 0) := by decide  -- V-SY-1

theorem test_feed_last_slot_completes :  -- V-FA-15
    (nextOf (exec (.faFeed 0x1A) (stateWith 507 [0x1B, 0x1B, 0x1B, 0x1B] 511 0))).map (fun t => (t.idx, t.msgLen)) =
      some (0, 512) := by decide
theorem test_feed_start_ok :  -- V-FA-3
    feedView (exec (.faFeed 0x1A)
      (stateWith 0 [0x1B, 0x1B, 0x1B, 0x1B, 1, 1, 1, 1, 0x1B, 0x1B, 0x1B, 0x1B] 12 0)) =
      some (0, 13, some (.ok 3 13)) := by decide

theorem test_fa_reset : feedView (exec .faReset (messageState [0x1B, 0x1B, 0x1B, 0x1B, 0x1A])) =
    some (0, 0, some (.ok 0 0)) := by decide  -- V-FA-25
theorem test_read_last_byte : rspOf (exec (.faRead 4) (messageState [0x1B, 0x1B, 0x1B, 0x1B, 0x1A])) =
    some (.ok 0 0x1A) := by decide  -- R98

theorem test_dec_power_truncates :  -- V-DP-10: −1999 with scaler −2 is −19
    rspOf (exec .decPower (messageState
      [0x01, 0x00, 0x10, 0x07, 0x00, 0x02, 0xF8, 0x31, 0xFE, 0x1B, 0x1B, 0x1B, 0x1B, 0x1A])) =
      some (.ok 0 0xFFFFFFED) := by decide
theorem test_dec_power_length :  -- V-DP-24: value byte count 5
    rspOf (exec .decPower (messageState
      [0x01, 0x00, 0x10, 0x07, 0x00, 0x05, 1, 2, 3, 4, 5, 0x00, 0x1B, 0x1B, 0x1B, 0x1B, 0x1A])) =
      some (.fail .decLenInvalid) := by decide
theorem test_dec_power_wraps : scaleSigned 3 9 = 0xB2D05E00 ∧ scaleSigned 0x7FFFFFFF (-9) = 2 ∧ scaleSigned 0x80000000 (-1) =
    0xF3333334 := by decide  -- V-DP-15, V-DP-19, V-DP-21
theorem test_dec_cons_last_offset :  -- V-DF-5 and V-DF-4: the last offset searched, and the next
    rspOf (exec .decCons (messageState [0xAA, 0xAA, 0xAA, 1, 0, 1, 8, 0, 1, 5, 0xFD, 0xAA, 0xAA, 0xAA])) = some (.ok 0 5) ∧
    rspOf (exec .decCons (messageState [0xAA, 0xAA, 0xAA, 1, 0, 1, 8, 0, 1, 5, 0xFD, 0xAA, 0xAA])) = some (.ok 0 0) := by
  decide
theorem test_dec_cons_wraps :  -- V-DC-10, V-DC-15
    scaleEnergy 0xFFFFFFFF (-1) = 0xFFFFFF9C ∧ scaleEnergy 12345 (-128) = 12345 := by decide
theorem test_dec_gen_scales :  -- V-DF-12
    rspOf (exec .decGen (messageState [1, 0, 2, 8, 0, 2, 0x30, 0x39, 0xFE, 0x1B, 0x1B, 0x1B, 0x1B, 0x1A])) =
      some (.ok 0 123450) := by decide
theorem test_dec_gen_absent :  -- V-DF-13, with the identifiers exchanged
    rspOf (exec .decGen (messageState [1, 0, 1, 8, 0, 2, 0x30, 0x39, 0xFE, 0x1B, 0x1B, 0x1B, 0x1B, 0x1A])) =
      some (.ok 0 0) := by decide

theorem test_pkt_encode :  -- V-PK-2
    rspOf (exec (.pktEncode 0x04030201 0x08070605 0x0C0B0A09 0x100F0E0D 0x14131211) State.reset) =
      some (.ok 0 0x14131211100F0E0D0C0B0A090807060504030201) := by decide
theorem test_pkt_decode :  -- V-PK-6
    rspOf (exec (.pktDecode 20 [1, 2, 3, 4, 5, 6, 7, 8, 9, 10, 11, 12, 13, 14, 15, 16, 17, 18, 19, 20]) State.reset) =
      some (.ok 0 0x14131211100F0E0D0C0B0A090807060504030201) := by decide
theorem test_pkt_decode_length : rspOf (exec (.pktDecode 19 (List.replicate 19 0)) State.reset) =
    some (.fail .lengthMismatch) := by decide  -- S7

theorem test_observe_saturates :  -- V-SQ-11
    trackerView (exec (.seqObserve 10) (trackerState 7 0xFFFFFFFE true)) =
      some (10, 0xFFFFFFFF, true, some (.ok 0 0xFFFFFFFF00000002)) := by decide
theorem test_observe_does_not_wrap :  -- V-SQ-9
    trackerView (exec (.seqObserve 5) (trackerState 0xFFFFFFFF 0 true)) = some (5, 0, true, some (.ok 0 0)) := by decide
theorem test_seq_reset :  -- V-SQ-14
    trackerView (exec .seqReset (trackerState 8 2 true)) = some (0, 0, false, some (.ok 0 0)) := by decide
theorem test_reserved_f : rspOf (exec .reservedF State.reset) = some (.fail .illegalCmd) := by decide  -- V-SY-5

theorem test_step_runs_the_word :  -- `9/00/5` from reset (S8)
    trackerView (step (State.reset.withFetchWord 172 0x5009)) = some (5, 0, true, some (.ok 1 0)) := by decide
theorem test_reset_edge :  -- V-RS-1
    (nextOf (step { trackerState 8 2 true with
      idx := 17, msgLen := 30, edges := [{ PortIn.idle with rst := true }] })).map
      (fun t => (t.idx, t.msgLen, t.lastCounter, t.missedCount, t.seenAny)) = some (0, 0, 0, 0, false) := by decide

/-! ## Witnesses: the hypotheses of each statement of Certificates/Slice0/Obligations.lean can be met together, for each clause,
at the boundary values of its range -/

/-- The host presents command `c`, the block has nothing in flight. -/
def presenting (c : Command) (s : State) : State :=
  s.withCommand c

/-- A command is in flight with an answer. -/
def inFlight (wait : Nat) (edges : List PortIn) : State :=
  { State.reset with rsp := some (.ok 0 0), wait := wait, edges := edges }

theorem witness_DecodeOfEncodeIsTheCommand :
    (Instr.pktDecode 0 []).wellFormed = true ∧ (Instr.pktDecode 19 (List.replicate 19 0xA5)).wellFormed = true ∧
    (Instr.pktDecode 20 (List.replicate 20 0xA5)).wellFormed = true ∧ (Instr.faRead 511).wellFormed = true := by decide

theorem witness_OnlyNamedBitsDecideTheCommand :
    decode { op := 1, len := 0xFF, data := 0xFF1A } = decode { op := 1, len := 0, data := 0x1A } ∧
    decode { op := 3, len := 9, data := 0x3FF } = decode { op := 3, len := 0, data := 0x1FF } ∧
    decode { op := 8, len := 2, data := 0x30201 } = decode { op := 8, len := 2, data := 0x0201 } ∧
    decode { op := 8, len := 3, data := 0x30201 } ≠ decode { op := 8, len := 3, data := 0x0201 } := by decide

theorem witness_StepRunsTheDecodedCommand :
    let p := PortIn.present { op := 4, len := 0, data := 0 }
    let s := { stateWith 0 [] 0 513 with edges := [p] }
    s.edges = p :: [] ∧ p.rst = false ∧ p.cmdValid = true ∧ s.rsp = none ∧ decode p.cmd = .decPower := by decide

theorem witness_FetchWordIsExecutedNext :
    decodeTableWord 8 0xF = some .reservedF ∧ decodeTableWord 172 (2 ^ 172 - 1) = some .reservedF ∧
    (nextOf (exec .reservedF { State.reset with rsp := none, wait := 0, draws := 1 })).isSome = true := by decide

theorem witness_ResponseIsHeldUntilDelivered :
    let p := { PortIn.idle with rspReady := true }
    (inFlight 1 [PortIn.idle]).edges = PortIn.idle :: [] ∧ PortIn.idle.rst = false ∧ 0 < (inFlight 1 []).wait ∧
    (inFlight 0 [PortIn.idle]).wait = 0 ∧ PortIn.idle.rspReady = false ∧
    (inFlight 0 [p]).edges = p :: [] ∧ p.rspReady = true ∧ (inFlight 0 [p]).rsp = some (.ok 0 0) := by decide

theorem witness_IdleEdgeChangesNothing :
    State.reset.portIn.rst = false ∧ State.reset.portIn.cmdValid = false ∧ State.reset.rsp = none := by decide

theorem witness_CommandInFlightGetsItsResponse :
    (inFlight 3 [PortIn.idle, PortIn.present { op := 9, len := 0, data := 1 }]).rsp = some (.ok 0 0) ∧
    ∀ p, p ∈ (inFlight 3 [PortIn.idle, PortIn.present { op := 9, len := 0, data := 1 }]).edges.take 3 → p.rst = false := by
  decide

theorem witness_ResetEdgeLeavesTheResetState :
    let p := { PortIn.present { op := 1, len := 0, data := 7 } with rst := true }
    (inFlight 2 [p]).edges = p :: [] ∧ p.rst = true := by decide

/-- For the statements about every next state of a command: such a state exists. -/
theorem witness_commands_answer :
    (nextOf (exec (.faFeed 7) State.reset)).isSome = true ∧ (nextOf (exec .decGen State.reset)).isSome = true ∧
    (nextOf (exec (.seqObserve 7) State.reset)).isSome = true := by decide

/-- A full message as the assembler leaves it, the first byte of the next one fed. -/
def invariantState : State :=
  { stateWith 0 [0x07, 0x1B, 0x1B, 0x1B, 0x1B, 0x1A] 1 6 with seenAny := true, lastCounter := 9, missedCount := 4 }

theorem witness_StepKeepsTheInvariant :
    State.Inv invariantState ∧ (nextOf (step (presenting { op := 1, len := 0, data := 8 } invariantState))).isSome = true := by
  decide

theorem witness_StepKeepsTheBufferCanonical :
    Memory.wf (stateWith 507 [1, 2, 3, 4] 511 0).buf ∧
    (nextOf (step (presenting { op := 1, len := 0, data := 8 } (stateWith 507 [1, 2, 3, 4] 511 0)))).isSome = true := by
  decide

theorem witness_FailedCommandWritesNothing :
    rspOf (exec .reservedB State.reset) = some (.fail .illegalCmd) ∧ (Response.fail .illegalCmd).status ≠ 0 ∧
    rspOf (exec (.pktDecode 21 []) State.reset) = some (.fail .lengthMismatch) ∧
    (Response.fail .lengthMismatch).status = 1 ∧ (Response.fail .decLenInvalid).status = 2 ∧
    (Response.fail .illegalCmd).status = 3 := by decide

theorem witness_FaFeedCompletesAtTheEndMarker :
    let low := stateWith 0 [0x1B, 0x1B, 0x1B, 0x1B] 4 0
    let high := stateWith 507 [0x1B, 0x1B, 0x1B, 0x1B] 511 0
    low.idx.toNat < 512 ∧ 4 ≤ low.idx.toNat ∧ low.bufBytes (low.idx.toNat - 4) 4 = [0x1B, 0x1B, 0x1B, 0x1B] ∧
    high.idx.toNat < 512 ∧ 4 ≤ high.idx.toNat ∧ high.bufBytes (high.idx.toNat - 4) 4 = [0x1B, 0x1B, 0x1B, 0x1B] := by
  decide

theorem witness_FaFeedAccumulatesOtherwise :
    let three := stateWith 0 [0x1B, 0x1B, 0x1B] 3 0
    let high := stateWith 507 [0x1B, 0x1B, 0x1B, 0x1B] 511 0
    three.idx.toNat < 512 ∧
    ¬ (4 ≤ three.idx.toNat ∧ three.bufBytes (three.idx.toNat - 4) 4 = [0x1B, 0x1B, 0x1B, 0x1B] ∧ (0x1A : Byte) = 0x1A) ∧
    high.idx.toNat < 512 ∧
    ¬ (4 ≤ high.idx.toNat ∧ high.bufBytes (high.idx.toNat - 4) 4 = [0x1B, 0x1B, 0x1B, 0x1B] ∧ (0x1B : Byte) = 0x1A) := by
  decide

theorem witness_FullBufferDropsEveryByte : (stateWith 0 [] 512 0).idx.toNat = 512 ∧ ([0x1A] : List Byte) ≠ [] := by decide

theorem witness_FullConditionIsAbsorbing :
    let s := presenting { op := 1, len := 0, data := 0x1A } (stateWith 0 [] 512 0)
    s.idx.toNat = 512 ∧ (nextOf (step s)).isSome = true ∧ s.portIn.rst = false ∧ ¬ s.accepts .faReset ∧
    s.accepts (.faFeed 0x1A) := by decide

theorem witness_FaFeedFrame :
    feedAddress (stateWith 0 [] 511 0) = some 511 ∧ feedAddress (stateWith 0 [] 512 0) = none ∧
    (nextOf (exec (.faFeed 1) (stateWith 0 [] 512 0))).isSome = true := by decide

theorem witness_OneMessagePerMarkedByteSequence :
    let bs : List Byte := [0x55, 0x1B, 0x1B, 0x1B, 0x1B, 0x1A]
    State.reset.idx = 0 ∧ 5 ≤ bs.length ∧ bs.length ≤ 512 ∧ bs.drop (bs.length - 5) = Config.endMarker ∧
    (∀ k, k < bs.length - 5 → (bs.drop k).take 5 ≠ Config.endMarker) ∧ 0 < 5 ∧ 5 < bs.length := by decide

theorem witness_OneMessagePerMarkedByteSequence_shortest :
    Config.endMarker.drop (Config.endMarker.length - 5) = Config.endMarker ∧ 5 ≤ Config.endMarker.length ∧
    ∀ k, k < Config.endMarker.length - 5 → (Config.endMarker.drop k).take 5 ≠ Config.endMarker := by decide

theorem witness_OneMessagePerMarkedByteSequence_longest :
    ∃ bs : List Byte, bs.length = 512 ∧ bs.drop (bs.length - 5) = Config.endMarker ∧
      ∀ k, k < bs.length - 5 → (bs.drop k).take 5 ≠ Config.endMarker := by
  obtain ⟨pre, hpre⟩ : ∃ pre : List Byte, pre = List.replicate 507 0x55 := ⟨_, rfl⟩
  have hp : pre.length = 507 := by rw [hpre, List.length_replicate]
  have hl : (pre ++ Config.endMarker).length = 512 := by rw [List.length_append, hp]; rfl
  refine ⟨pre ++ Config.endMarker, hl, ?_, fun k hk h => ?_⟩
  · rw [hl, show 512 - 5 = pre.length by omega, List.drop_left]
  · have hb : (pre ++ Config.endMarker)[k]? = some 0x55 := by
      rw [List.getElem?_append_left (by omega), hpre, List.getElem?_replicate, if_pos (by omega)]
    have h0 := congrArg (·[0]?) h
    simp only [List.getElem?_take_of_lt, Nat.zero_lt_succ, List.getElem?_drop, Nat.add_zero, hb] at h0
    exact absurd h0 (by decide)

theorem witness_AccumIsTheBigEndianValue : 4 ≤ 4 ∧ 0 ≤ 4 := by decide

theorem witness_UnmarkedBytesFillTheBuffer :
    (List.replicate 512 (0x55 : Byte)).length = 512 ∧
    ∀ k, k < 508 → ((List.replicate 512 (0x55 : Byte)).drop k).take 5 ≠ Config.endMarker := by
  refine ⟨List.length_replicate, fun k hk h => ?_⟩
  rw [List.drop_replicate, List.take_replicate, show min 5 (512 - k) = 5 by omega] at h
  exact absurd h (by decide)

theorem witness_StaleBytesNeverMatch :
    let s := stateWith 0 [0x07, 0x01] 1 0
    let s' := stateWith 0 [0x07, 0x02] 1 0
    s.idx = s'.idx ∧ ∀ a, a < s.idx.toNat → s.bufByte a = s'.bufByte a := by decide

theorem witness_FaReadAnswersTheStoredByte :
    Memory.lookup (stateWith 511 [0x1A] 0 0).buf (511 : BitVec 9).toNat = some 0x1A ∧
    Memory.lookup State.reset.buf (0 : BitVec 9).toNat = none := by decide

theorem witness_AbsentFieldDecodesToZero :
    (messageState []).msgLen.toNat ≤ 512 ∧ State.fieldAbsent (messageState []) Config.idPower ∧
    State.fieldAbsent (messageState [1, 0, 1, 8, 0, 1, 5, 0xFD, 0xAA, 0xAA]) Config.idCons ∧
    State.fieldAbsent (messageState [1, 0, 1, 8, 0, 1, 5, 0xFD, 0xAA, 0xAA, 0xAA]) Config.idGen := by decide

theorem witness_DecPowerIsTheShiftedSignedValue :
    let s := messageState [1, 0, 0x10, 7, 0, 4, 0x80, 0, 0, 0, 0xFF]
    s.msgLen.toNat ≤ 512 ∧ s.fieldAt Config.idPower 0 ∧ s.fieldVlen 0 ≤ 4 := by decide

theorem witness_DecEnergyIsTheScaledUnsignedValue :
    let c := messageState [0xAA, 1, 0, 1, 8, 0, 4, 0xFF, 0xFF, 0xFF, 0xFF, 0xFE]
    let g := messageState [1, 0, 2, 8, 0, 0, 0xFD, 0xAA, 0xAA, 0xAA, 0xAA]
    c.msgLen.toNat ≤ 512 ∧ c.fieldVlen 1 ≤ 4 ∧ c.fieldAt Config.idCons 1 ∧
    g.msgLen.toNat ≤ 512 ∧ g.fieldVlen 0 ≤ 4 ∧ g.fieldAt Config.idGen 0 := by decide

theorem witness_LongValueIsRefusedByStatus :
    let p := messageState [1, 0, 0x10, 7, 0, 0x05, 1, 2, 3, 4, 5]
    let c := messageState [1, 0, 1, 8, 0, 0x06, 1, 2, 3, 4, 5]
    let g := messageState [1, 0, 2, 8, 0, 0xFF, 1, 2, 3, 4, 5]
    p.msgLen.toNat ≤ 512 ∧ 4 < p.fieldVlen 0 ∧ p.fieldAt Config.idPower 0 ∧
    c.msgLen.toNat ≤ 512 ∧ 4 < c.fieldVlen 0 ∧ c.fieldAt Config.idCons 0 ∧
    g.msgLen.toNat ≤ 512 ∧ 4 < g.fieldVlen 0 ∧ g.fieldAt Config.idGen 0 := by decide

theorem witness_FieldBeforeTheMarkerIsDecoded :
    let id := Config.idPower
    let value : List Byte := [0xFF, 0x9C]
    id.length = 5 ∧ value.length ≤ 4 ∧ ((0x52 : Byte).extractLsb' 0 4).toNat = value.length ∧
    ∀ j, j < ([0xAA] : List Byte).length →
      (([0xAA] ++ id ++ [0x52] ++ value ++ [0x00] ++ [] ++ Config.endMarker : List Byte).drop j).take 5 ≠ id := by decide

theorem witness_ScaleSignedIsOneDecimalShift : (-10 : Int) ≤ -10 ∧ (32 : Int) ≤ 32 := by decide

theorem witness_DecodeReadsOnlyTheMessage :
    let s := stateWith 0 [1, 2] 0 1
    let s' := stateWith 0 [1, 3] 7 1
    Instr.decGen ∈ decAll ∧ s.msgLen = s'.msgLen ∧ s.msgLen.toNat ≤ 512 ∧
    ∀ a, a < s.msgLen.toNat → s.bufByte a = s'.bufByte a := by decide

theorem witness_DecodePastTheBufferStops :
    Instr.decPower ∈ decAll ∧ Instr.decCons ∈ decAll ∧ 512 < (stateWith 0 [] 0 513).msgLen.toNat ∧
    512 < (stateWith 0 [] 0 1023).msgLen.toNat := by decide

theorem witness_PktDecode :
    (Instr.pktDecode 20 (List.replicate 20 0xFF)).wellFormed = true ∧ (List.replicate 20 (0xFF : Byte)).length = 20 ∧
    (0 : Byte) ≠ 20 ∧ (19 : Byte) ≠ 20 ∧ (21 : Byte) ≠ 20 ∧ (255 : Byte) ≠ 20 := by decide

theorem witness_FirstObservationCountsNoGap : State.reset.seenAny = false := by decide

theorem witness_SkippedCountersAreAGap :
    let s := trackerState 0 0 true
    s.seenAny = true ∧ s.lastCounter.toNat + 1 < (2 : Word).toNat ∧ s.lastCounter.toNat + 1 < (0xFFFFFFFF : Word).toNat := by
  decide

theorem witness_NoSkippedCounterIsNoGap :
    let s := trackerState 5 0 true
    let top := trackerState 0xFFFFFFFF 0 true
    s.seenAny = true ∧ (6 : Word).toNat ≤ s.lastCounter.toNat + 1 ∧ (0 : Word).toNat ≤ s.lastCounter.toNat + 1 ∧
    top.seenAny = true ∧ top.lastCounter = 0xFFFFFFFF := by decide

theorem witness_IncreasingCountersCountTheMissing :
    State.reset.seenAny = false ∧ ([5, 6, 0xFFFFFFFF] : List Word).Pairwise (fun a b => a.toNat < b.toNat) := by decide

theorem witness_MissedCountNeverDecreases :
    let s := presenting { op := 9, len := 0, data := 8 } (trackerState 5 0 true)
    (nextOf (step s)).isSome = true ∧ s.portIn.rst = false ∧ ¬ s.accepts .seqReset := by decide

theorem witness_UnitsReadOnlyTheirOwnState :
    let s := trackerState 5 1 true
    let s' := { stateWith 0 [1] 3 0 with lastCounter := 5, missedCount := 1, seenAny := true }
    s.lastCounter = s'.lastCounter ∧ s.missedCount = s'.missedCount ∧ s.seenAny = s'.seenAny ∧ s ≠ s' := by decide

theorem witness_UnitsReadOnlyTheirOwnState_buffer :
    let s := stateWith 0 [0x1B, 0x1B, 0x1B, 0x1B] 4 2
    let s' := { stateWith 0 [0x1B, 0x1B, 0x1B, 0x1B] 4 3 with lastCounter := 5, seenAny := true }
    let full := stateWith 511 [7] 512 512
    let full' := stateWith 511 [7] 512 0
    (s.idx = s'.idx ∧ (∀ a, a < 512 → s.bufByte a = s'.bufByte a) ∧ s ≠ s') ∧
    (full.idx = full'.idx ∧ (∀ a, a < 512 → full.bufByte a = full'.bufByte a) ∧ full ≠ full') ∧
    full.bufByte (511 : BitVec 9).toNat = (stateWith 511 [7] 0 0).bufByte (511 : BitVec 9).toNat :=
  ⟨⟨rfl, fun _ _ => rfl, by decide⟩, ⟨rfl, fun _ _ => rfl, by decide⟩, rfl⟩

theorem witness_UnitsReadOnlyTheirOwnState_message :
    let s := stateWith 0 [1, 2] 0 2
    let s' := stateWith 0 [1, 2, 3] 9 2
    let whole := stateWith 0 [1] 0 512
    Instr.decPower ∈ decAll ∧ s.msgLen = s'.msgLen ∧ s.msgLen.toNat ≤ 512 ∧
    (∀ a, a < s.msgLen.toNat → s.bufByte a = s'.bufByte a) ∧ s ≠ s' ∧ whole.msgLen.toNat ≤ 512 := by decide

end Sys2Proof.Tests
end

section

/-! Field decoder: what the three decode commands share. -/

namespace Sys2Proof.Machine

/-- `DEC_POWER`, `DEC_CONS` and `DEC_GEN` differ in the identifier, the signedness and the scaling alone (R117 to R119), so a
law of `decodeCommand` is a law of each of them. -/
theorem exec_eq_decodeCommand_of_mem_decAll {i : Instr} (hi : i ∈ decAll) :
    ∃ id sg scale, ∀ s, exec i s = decodeCommand id sg scale s := by
  obtain rfl | rfl | rfl : i = .decPower ∨ i = .decCons ∨ i = .decGen := by simpa [decAll] using hi
  · exact ⟨Config.idPower, true, scaleSigned, fun _ => rfl⟩
  · exact ⟨Config.idCons, false, scaleEnergy, fun _ => rfl⟩
  · exact ⟨Config.idGen, false, scaleEnergy, fun _ => rfl⟩

/-- Settles O41: a decode first reads the whole message, and that read leaves the buffer. -/
theorem decodePastTheBufferStops : Obligations.DecodePastTheBufferStops := by
  intro i s hi hlen
  obtain ⟨id, sg, scale, hexec⟩ := exec_eq_decodeCommand_of_mem_decAll hi
  rw [hexec]
  exact decodeCommand_error id sg scale s hlen

end Sys2Proof.Machine
end

section

/-! What a command and an edge leave unchanged, item by item of the state (10_state.md R33, the column "written by"). -/

namespace Sys2Proof.Machine

/-! ## Reading the buffer through the named updates -/

@[simp] theorem answer_bufByte (s : State) (r : Response) (x : Nat) : (s.answer r).bufByte x = s.bufByte x := rfl
@[simp] theorem answerOk_bufByte (s : State) (f : BitVec 2) (d : Lanes) (x : Nat) :
    (s.answerOk f d).bufByte x = s.bufByte x := rfl
@[simp] theorem completeMessage_bufByte (s : State) (n : Nat) (k : Bool) (x : Nat) :
    (completeMessage s n k).bufByte x = s.bufByte x := rfl
@[simp] theorem keepAccumulating_bufByte (s : State) (n x : Nat) :
    (keepAccumulating s n).bufByte x = s.bufByte x := rfl

/-! ## The tracker -/

/-- All that `SEQ_OBSERVE` can do (R161): the count moves by the gap, the other two items take constants or the operand. -/
theorem execSeqObserve_cases (c : Word) (s t : State) (h : execSeqObserve c s = .next t) :
    t = { s with lastCounter := c, missedCount := missedAfter s (observedGap s c), seenAny := true }.answerOk
      (firstFlag (!s.seenAny))
      (gapResult (BitVec.ofNat 32 (observedGap s c)) (missedAfter s (observedGap s c))) :=
  (Host.Outcome.next.inj h).symm

/-- Saturation never takes the sum below what was counted (R166). -/
theorem missedCount_le_missedAfter (s : State) (gap : Nat) :
    s.missedCount.toNat ≤ (missedAfter s gap).toNat := by
  unfold missedAfter sat32
  split
  · exact le_rfl
  · have := s.missedCount.isLt
    rw [BitVec.toNat_ofNat, Nat.mod_eq_of_lt] <;> omega

/-! ## Commands -/

/-- `FA_FEED` writes neither the tracker nor the fields that are the model's own. -/
theorem execFaFeed_frame (b : Byte) (s t : State) (h : execFaFeed b s = .next t) :
    t.lastCounter = s.lastCounter ∧ t.missedCount = s.missedCount ∧ t.seenAny = s.seenAny ∧
      t.wait = s.wait ∧ t.draws = s.draws ∧ t.edges = s.edges := by
  obtain ⟨-, rfl⟩ | ⟨-, ⟨k, rfl⟩, -⟩ | ⟨-, rfl, -⟩ := execFaFeed_cases b s t h <;> simp

/-- Settles O17: the four commands that write an item are looked at one by one, every other command only answers. -/
theorem onlyListedCommandsWriteAnItem : Obligations.OnlyListedCommandsWriteAnItem := by
  intro i s t h
  obtain ⟨b, rfl, hf⟩ | ⟨rfl, rfl⟩ | ⟨c, rfl, hc⟩ | ⟨rfl, rfl⟩ | ⟨-, r, rfl⟩ := exec_cases i s t h
  · obtain ⟨hlast, hmissed, hseen, hown⟩ := execFaFeed_frame b s t hf
    exact ⟨fun hne => absurd rfl (hne b), fun hne => absurd rfl (hne b), fun _ _ => ⟨hlast, hmissed, hseen⟩, hown⟩
  · exact ⟨fun _ => ⟨rfl, fun _ => rfl⟩, fun _ hne => absurd rfl hne, fun _ _ => ⟨rfl, rfl, rfl⟩, rfl, rfl, rfl⟩
  · obtain rfl := execSeqObserve_cases c s t hc
    exact ⟨fun _ => ⟨rfl, fun _ => rfl⟩, fun _ _ => ⟨rfl, rfl⟩, fun hne => absurd rfl (hne c), rfl, rfl, rfl⟩
  · exact ⟨fun _ => ⟨rfl, fun _ => rfl⟩, fun _ _ => ⟨rfl, rfl⟩, fun _ hne => absurd rfl hne, rfl, rfl, rfl⟩
  · exact ⟨fun _ => ⟨rfl, fun _ => rfl⟩, fun _ _ => ⟨rfl, rfl⟩, fun _ _ => ⟨rfl, rfl, rfl⟩, rfl, rfl, rfl⟩

/-- Settles O26: the three cases of `FA_FEED`, the byte stored at the cursor in two of them and nowhere in the third. -/
theorem faFeedFrame : Obligations.FaFeedFrame := by
  intro b s t h
  have hrest := execFaFeed_frame b s t h
  obtain ⟨hfull, rfl⟩ | ⟨hroom, ⟨k, rfl⟩, -⟩ | ⟨hroom, rfl, -⟩ := execFaFeed_cases b s t h
  · rw [feedAddress_full s hfull]
    exact ⟨by simp, fun _ _ => rfl, .inl rfl, hrest⟩
  · rw [feedAddress_room s hroom]
    refine ⟨?_, by simp, .inr ⟨_, _, rfl, by cases k <;> rfl⟩, hrest⟩
    rintro _ ⟨⟩
    simp +contextual [stored_bufByte]
  · rw [feedAddress_room s hroom]
    refine ⟨?_, by simp, .inl rfl, hrest⟩
    rintro _ ⟨⟩
    simp +contextual [stored_bufByte]

/-- Every command that completes holds its response (R61). -/
theorem exec_rsp_eq_some (i : Instr) (s t : State) (h : exec i s = .next t) : ∃ r, t.rsp = some r := by
  obtain ⟨b, rfl, hf⟩ | ⟨rfl, rfl⟩ | ⟨c, rfl, hc⟩ | ⟨rfl, rfl⟩ | ⟨-, r, rfl⟩ := exec_cases i s t h
  · obtain ⟨-, rfl⟩ | ⟨-, ⟨k, rfl⟩, -⟩ | ⟨-, rfl, -⟩ := execFaFeed_cases b s t hf <;> exact ⟨_, rfl⟩
  · exact ⟨_, rfl⟩
  · exact ⟨_, congrArg State.rsp (execSeqObserve_cases c s t hc)⟩
  · exact ⟨_, rfl⟩
  · exact ⟨_, rfl⟩

/-- No command but `SEQ_RESET` lowers the missed count or clears `seen_any` (R26, R27). -/
theorem exec_missedCount_mono (i : Instr) (s t : State) (h : exec i s = .next t) (hi : i ≠ .seqReset) :
    s.missedCount.toNat ≤ t.missedCount.toNat ∧ (s.seenAny = true → t.seenAny = true) := by
  by_cases hobs : ∃ c, i = .seqObserve c
  · obtain ⟨c, rfl⟩ := hobs
    obtain rfl := execSeqObserve_cases c s t h
    exact ⟨missedCount_le_missedAfter s _, fun _ => rfl⟩
  · obtain ⟨-, -, htracker, -⟩ := onlyListedCommandsWriteAnItem i s t h
    obtain ⟨-, hmissed, hseen⟩ := htracker (not_exists.mp hobs) hi
    exact ⟨(congrArg BitVec.toNat hmissed).ge, fun hs => hseen.trans hs⟩

/-! ## The clock edge -/

/-- While a command is in flight only the response register and its wait move, and a response that goes leaves no wait (R61). -/
theorem responsePhase_cases (s : State) (p : PortIn) :
    ∃ r w, s.responsePhase p = { s with rsp := r, wait := w } ∧ (s.rsp ≠ none → r = none → w = 0) := by
  unfold State.responsePhase
  split
  · exact ⟨s.rsp, s.wait - 1, rfl, fun hne hr => absurd hr hne⟩
  · split
    · exact ⟨none, s.wait, rfl, fun _ _ => by omega⟩
    · exact ⟨s.rsp, s.wait, rfl, fun hne hr => absurd hr hne⟩

/-- Settles O51: an edge moves the tracker only through the command it accepts. -/
theorem missedCountNeverDecreases : Obligations.MissedCountNeverDecreases := by
  intro s t hstep hrst hnot
  obtain ⟨hrst', -⟩ | ⟨-, -, rfl⟩ | ⟨-, hrsp, hvalid, u, hexec, rfl⟩ | ⟨-, -, -, rfl⟩ := step_cases s t hstep
  · simp [hrst] at hrst'
  · obtain ⟨r, w, hphase, -⟩ := responsePhase_cases s.sampled s.portIn
    rw [hphase]
    exact ⟨le_rfl, id⟩
  · exact exec_missedCount_mono _ s.sampled u hexec fun hi => hnot ⟨hrst, hrsp, hvalid, hi⟩
  · exact ⟨le_rfl, id⟩

end Sys2Proof.Machine
end

section

/-! The invariant of the block: the part about the message buffer as a predicate of its own, kept by every command. -/

namespace Sys2Proof.Machine

/-! ## The buffer's part of the invariant -/

/-- The part of `State.Inv` that speaks of `buf`, `idx` and `msg_len`. -/
structure State.BufferInv (s : State) : Prop where
  wf : Memory.wf s.buf
  idxInRange : s.idxInRange
  msgLenInRange : s.msgLenInRange
  writtenBelow : s.writtenBelow
  noEndBuffered : s.noEndBuffered
  messageEndsWithMarker : s.messageEndsWithMarker

theorem inv_iff (s : State) : s.Inv ↔ s.BufferInv ∧ s.freshTracker ∧ s.noIdleWait := by
  constructor
  · rintro ⟨hwf, hidx, hlen, hwritten, hend, hmsg, hfresh, hwait⟩
    exact ⟨⟨hwf, hidx, hlen, hwritten, hend, hmsg⟩, hfresh, hwait⟩
  · rintro ⟨⟨hwf, hidx, hlen, hwritten, hend, hmsg⟩, hfresh, hwait⟩
    exact ⟨hwf, hidx, hlen, hwritten, hend, hmsg, hfresh, hwait⟩

/-- Bytes that were written since reset read the same at every draw: no free value enters (R32). -/
theorem bufBytes_eq_of_written (s t : State) (a n : Nat) (hbuf : t.buf = s.buf)
    (hw : ∀ x, x < a + n → (Memory.lookup s.buf x).isSome = true) : t.bufBytes a n = s.bufBytes a n := by
  refine bufBytes_congr s t a n fun x _ hx => ?_
  obtain ⟨v, hv⟩ := Option.isSome_iff_exists.mp (hw x hx)
  rw [bufByte_eq, bufByte_eq, hbuf, hv, Option.getD_some, Option.getD_some]

/-- The buffer's part of the invariant depends on `buf`, `idx` and `msg_len` alone. -/
theorem State.BufferInv.congr {s t : State} (h : s.BufferInv) (hbuf : t.buf = s.buf) (hidx : t.idx = s.idx)
    (hlen : t.msgLen = s.msgLen) : t.BufferInv where
  wf := hbuf ▸ h.wf
  idxInRange := by simpa only [State.idxInRange, hidx] using h.idxInRange
  msgLenInRange := by simpa only [State.msgLenInRange, hlen] using h.msgLenInRange
  writtenBelow := by simpa only [State.writtenBelow, hbuf, hidx, hlen] using h.writtenBelow
  noEndBuffered k hk := by
    rw [hidx] at hk
    rw [endLen_eq, bufBytes_eq_of_written s t k 5 hbuf fun x hx => h.writtenBelow x (by omega)]
    exact h.noEndBuffered k hk
  messageEndsWithMarker h5 hroom := by
    rw [hlen] at h5 hroom ⊢
    rw [hidx] at hroom
    rw [endLen_eq] at h5 hroom ⊢
    rw [bufBytes_eq_of_written s t _ 5 hbuf fun x hx => h.writtenBelow x (by omega)]
    exact h.messageEndsWithMarker h5 hroom

/-- With the cursor and the length at 0 nothing is said of the buffer but its form (R97, R221). -/
theorem bufferInv_of_cleared {s : State} (hwf : Memory.wf s.buf) (hidx : s.idx = 0) (hlen : s.msgLen = 0) :
    s.BufferInv where
  wf := hwf
  idxInRange := by simp [State.idxInRange, hidx]
  msgLenInRange := by simp [State.msgLenInRange, hlen]
  writtenBelow := by simp [State.writtenBelow, hidx, hlen]
  noEndBuffered := by simp [State.noEndBuffered, hidx]
  messageEndsWithMarker := by simp [State.messageEndsWithMarker, hlen]

/-! ## `FA_FEED` keeps it -/

/-- The byte at the cursor extends the written part of the buffer by one (R91). -/
theorem stored_written (s : State) (b : Byte) (hw : s.writtenBelow) (x : Nat)
    (hx : x < max (s.idx.toNat + 1) s.msgLen.toNat) :
    (Memory.lookup (s.stored s.idx.toNat b).buf x).isSome = true := by
  rw [stored_buf, lookup_write]
  split
  · rfl
  · exact hw x (by omega)

/-- A byte sequence away from the stored byte reads as before. -/
theorem stored_bufBytes_of_notMem (s : State) (c : Nat) (b : Byte) (a n : Nat) (h : c < a ∨ a + n ≤ c) :
    (s.stored c b).bufBytes a n = s.bufBytes a n :=
  bufBytes_congr s _ a n fun x _ _ => by rw [stored_bufByte, if_neg (by omega)]

/-- Completion keeps the buffer's part: the message just latched ends with the marker (R92, R93). -/
theorem State.BufferInv.after_completeMessage {s : State} (h : s.BufferInv) (b : Byte) (k : Bool) (hroom : s.idx.toNat < 512)
    (h5 : 5 ≤ s.idx.toNat + 1)
    (hend : (s.stored s.idx.toNat b).bufBytes (s.idx.toNat + 1 - 5) 5 = Config.endMarker) :
    (completeMessage (s.stored s.idx.toNat b) (s.idx.toNat + 1) k).BufferInv := by
  have hlen : (BitVec.ofNat 10 (s.idx.toNat + 1)).toNat = s.idx.toNat + 1 := by
    rw [BitVec.toNat_ofNat, Nat.mod_eq_of_lt (by omega)]
  refine ⟨write_wf _ _ _ h.wf hroom, by simp [State.idxInRange], .inr ?_, fun x hx => ?_,
    by simp [State.noEndBuffered], fun _ _ => ?_⟩
  · simp only [completeMessage_msgLen, hlen, endLen_eq, cap_eq]
    omega
  · simp only [completeMessage_msgLen, completeMessage_idx, hlen] at hx
    exact stored_written s b h.writtenBelow x (by simp at hx; omega)
  · simp only [completeMessage_msgLen, hlen, endLen_eq]
    exact hend

/-- Accumulating keeps the buffer's part: only the last five bytes are a new place for the marker, and the stored byte lies
below the marker of a message that still counts as whole (R92, R226). -/
theorem State.BufferInv.after_keepAccumulating {s : State} (h : s.BufferInv) (b : Byte) (hroom : s.idx.toNat < 512)
    (hend : ¬ (5 ≤ s.idx.toNat + 1 ∧
      (s.stored s.idx.toNat b).bufBytes (s.idx.toNat + 1 - 5) 5 = Config.endMarker)) :
    (keepAccumulating (s.stored s.idx.toNat b) (s.idx.toNat + 1)).BufferInv := by
  have hidx : (BitVec.ofNat 10 (s.idx.toNat + 1)).toNat = s.idx.toNat + 1 := by
    rw [BitVec.toNat_ofNat, Nat.mod_eq_of_lt (by omega)]
  refine ⟨write_wf _ _ _ h.wf hroom, ?_, h.msgLenInRange, fun x hx => ?_, fun k hk hmark => ?_, fun h5 hfree => ?_⟩
  · simp only [State.idxInRange, keepAccumulating_idx, hidx, cap_eq]
    omega
  · rw [keepAccumulating_idx, hidx] at hx
    exact stored_written s b h.writtenBelow x hx
  · rw [keepAccumulating_idx, hidx] at hk
    replace hmark : (s.stored s.idx.toNat b).bufBytes k 5 = Config.endMarker := hmark
    by_cases hlast : k = s.idx.toNat + 1 - 5
    · exact hend ⟨by omega, hlast ▸ hmark⟩
    · rw [stored_bufBytes_of_notMem _ _ _ _ _ (.inr (by omega))] at hmark
      exact h.noEndBuffered k (by omega) hmark
  · simp only [keepAccumulating_idx, keepAccumulating_msgLen, stored_msgLen, hidx, endLen_eq] at h5 hfree ⊢
    exact (stored_bufBytes_of_notMem s _ b _ 5 (.inl (by omega))).trans
      (h.messageEndsWithMarker h5 (by rw [endLen_eq]; omega))

theorem execFaFeed_keeps_bufferInv (b : Byte) (s t : State) (hs : s.BufferInv) (h : execFaFeed b s = .next t) :
    t.BufferInv := by
  obtain ⟨-, rfl⟩ | ⟨hroom, ⟨k, rfl⟩, h5, hend⟩ | ⟨hroom, rfl, hend⟩ := execFaFeed_cases b s t h
  · exact hs.congr rfl rfl rfl
  · exact hs.after_completeMessage b k hroom h5 hend
  · exact hs.after_keepAccumulating b hroom hend

/-! ## Every command keeps it -/

theorem exec_keeps_bufferInv (i : Instr) (s t : State) (hs : s.BufferInv) (h : exec i s = .next t) :
    t.BufferInv := by
  obtain ⟨b, rfl, hf⟩ | ⟨rfl, rfl⟩ | ⟨c, rfl, hc⟩ | ⟨rfl, rfl⟩ | ⟨-, r, rfl⟩ := exec_cases i s t h
  · exact execFaFeed_keeps_bufferInv b s t hs hf
  · exact bufferInv_of_cleared hs.wf rfl rfl
  · obtain rfl := execSeqObserve_cases c s t hc
    exact hs.congr rfl rfl rfl
  · exact hs.congr rfl rfl rfl
  · exact hs.congr rfl rfl rfl

theorem exec_keeps_freshTracker (i : Instr) (s t : State) (hs : s.freshTracker) (h : exec i s = .next t) :
    t.freshTracker := by
  obtain ⟨b, rfl, hf⟩ | ⟨rfl, rfl⟩ | ⟨c, rfl, hc⟩ | ⟨rfl, rfl⟩ | ⟨-, r, rfl⟩ := exec_cases i s t h
  · obtain ⟨hlast, hmissed, hseen, -⟩ := execFaFeed_frame b s t hf
    simpa only [State.freshTracker, hlast, hmissed, hseen] using hs
  · exact hs
  · obtain rfl := execSeqObserve_cases c s t hc
    exact fun hseen => Bool.noConfusion hseen
  · exact fun _ => ⟨rfl, rfl⟩
  · exact hs

/-! ## The step -/

theorem sampled_inv {s : State} (hs : s.Inv) : s.sampled.Inv := by
  obtain ⟨hbuf, hfresh, hwait⟩ := (inv_iff s).mp hs
  exact (inv_iff _).mpr ⟨hbuf.congr rfl rfl rfl, hfresh, hwait⟩

/-- Settles O14: each kind of edge keeps the buffer's part, the tracker's and the wait's. -/
theorem stepKeepsTheInvariant : Obligations.StepKeepsTheInvariant := by
  intro s t hs hstep
  have hsampled := sampled_inv hs
  obtain ⟨hbuf, hfresh, -⟩ := (inv_iff _).mp hsampled
  obtain ⟨-, rfl⟩ | ⟨-, ⟨r, hrsp⟩, rfl⟩ | ⟨-, -, -, u, hexec, rfl⟩ | ⟨-, -, -, rfl⟩ := step_cases s t hstep
  · exact (inv_iff _).mpr
      ⟨bufferInv_of_cleared (by simp [Memory.wf]) rfl rfl, fun _ => ⟨rfl, rfl⟩, fun _ => rfl⟩
  · obtain ⟨r', w, hphase, hwait⟩ := responsePhase_cases s.sampled s.portIn
    rw [hphase]
    exact (inv_iff _).mpr ⟨hbuf.congr rfl rfl rfl, hfresh, hwait (by simp [hrsp])⟩
  · obtain ⟨r, hr⟩ := exec_rsp_eq_some _ _ u hexec
    exact (inv_iff _).mpr ⟨(exec_keeps_bufferInv _ _ u hbuf hexec).congr rfl rfl rfl,
      exec_keeps_freshTracker _ _ u hfresh hexec, fun hnone => absurd (hr.symm.trans hnone) (by simp)⟩
  · exact hsampled

/-- Settles O13: nothing is buffered, counted or waited for. -/
theorem resetMeetsTheInvariant : Obligations.ResetMeetsTheInvariant :=
  (inv_iff _).mpr
    ⟨bufferInv_of_cleared (by simp [Memory.wf, State.reset]) rfl rfl, fun _ => ⟨rfl, rfl⟩, fun _ => rfl⟩

end Sys2Proof.Machine
end

section

/-! What a command reads: its answer in two states that agree on the items listed for it (10_state.md R33, the column "read
by"). -/

namespace Sys2Proof.Machine

/-! ## Frame assembler -/

/-- Two states that agree below the cursor agree, after the byte is stored, on one byte more. -/
theorem stored_bufBytes_agree (b : Byte) (s s' : State) (c : Nat)
    (hbelow : ∀ a, a < c → s.bufByte a = s'.bufByte a) (a n : Nat) (h : a + n ≤ c + 1) :
    (s.stored c b).bufBytes a n = (s'.stored c b).bufBytes a n := by
  refine bufBytes_congr _ _ a n fun x _ hx => ?_
  rw [stored_bufByte, stored_bufByte]
  split
  · rfl
  · exact hbelow x (by omega)

/-- In two states with the same cursor and the same bytes below it `FA_FEED` takes the same of its three ways, with the same
`start_ok` (R30, R92, R96). -/
theorem execFaFeed_agree (b : Byte) (s s' : State) (hidx : s.idx = s'.idx)
    (hbelow : ∀ a, a < s.idx.toNat → s.bufByte a = s'.bufByte a) :
    (execFaFeed b s = .next (s.answerOk 0 0) ∧ execFaFeed b s' = .next (s'.answerOk 0 0)) ∨
    (∃ k, execFaFeed b s = .next (completeMessage (s.stored s.idx.toNat b) (s.idx.toNat + 1) k) ∧
      execFaFeed b s' = .next (completeMessage (s'.stored s.idx.toNat b) (s.idx.toNat + 1) k)) ∨
    (execFaFeed b s = .next (keepAccumulating (s.stored s.idx.toNat b) (s.idx.toNat + 1)) ∧
      execFaFeed b s' = .next (keepAccumulating (s'.stored s.idx.toNat b) (s.idx.toNat + 1))) := by
  have hagree := stored_bufBytes_agree b s s' s.idx.toNat hbelow
  by_cases hroom : s.idx.toNat < 512
  · rw [execFaFeed_room b s hroom, execFaFeed_room b s' (hidx ▸ hroom), ← hidx]
    by_cases hmark : 5 ≤ s.idx.toNat + 1 ∧
        (s.stored s.idx.toNat b).bufBytes (s.idx.toNat + 1 - 5) 5 = Config.endMarker
    · have hmark' := hagree (s.idx.toNat + 1 - 5) 5 (by omega) ▸ hmark
      have hstart : (decide (8 ≤ s.idx.toNat + 1) && (s'.stored s.idx.toNat b).bufBytes 0 8 == Config.startMarker) =
          (decide (8 ≤ s.idx.toNat + 1) && (s.stored s.idx.toNat b).bufBytes 0 8 == Config.startMarker) := by
        by_cases h8 : 8 ≤ s.idx.toNat + 1
        · rw [hagree 0 8 (by omega)]
        · simp [h8]
      simp only [if_pos hmark, if_pos hmark', hstart]
      exact .inr (.inl ⟨_, rfl, rfl⟩)
    · have hmark' : ¬ (5 ≤ s.idx.toNat + 1 ∧
          (s'.stored s.idx.toNat b).bufBytes (s.idx.toNat + 1 - 5) 5 = Config.endMarker) :=
        fun ⟨h5, hend⟩ => hmark ⟨h5, (hagree _ 5 (by omega)).trans hend⟩
      exact .inr (.inr ⟨congrArg _ (if_neg hmark), congrArg _ (if_neg hmark')⟩)
  · rw [execFaFeed_full b s (by omega), execFaFeed_full b s' (by rw [← hidx]; omega)]
    exact .inl ⟨rfl, rfl⟩

/-- Settles O29: the cursor and the response are those of the way taken, and both states take the same one. -/
theorem staleBytesNeverMatch : Obligations.StaleBytesNeverMatch := by
  intro b s s' hidx hbelow
  obtain ⟨h, h'⟩ | ⟨k, h, h'⟩ | ⟨h, h'⟩ := execFaFeed_agree b s s' hidx hbelow
  · exact ⟨_, _, h, h', rfl, hidx⟩
  · exact ⟨_, _, h, h', rfl, rfl⟩
  · exact ⟨_, _, h, h', rfl, rfl⟩

/-- What `FA_FEED` writes depends on `idx` and `buf` alone (R33). -/
theorem exec_faFeed_reads (b : Byte) (s s' : State) (hidx : s.idx = s'.idx)
    (hbuf : ∀ a, a < 512 → s.bufByte a = s'.bufByte a) :
    ∃ t t', exec (.faFeed b) s = .next t ∧ exec (.faFeed b) s' = .next t' ∧ t.rsp = t'.rsp ∧ t.idx = t'.idx ∧
      (∀ a, a < 512 → t.bufByte a = t'.bufByte a) ∧
      (t.msgLen = t'.msgLen ∨ t.msgLen = s.msgLen ∧ t'.msgLen = s'.msgLen) := by
  have hstored (a : Nat) (ha : a < 512) :
      (s.stored s.idx.toNat b).bufByte a = (s'.stored s.idx.toNat b).bufByte a := by
    rw [stored_bufByte, stored_bufByte, hbuf a ha]
  by_cases hfull : 512 ≤ s.idx.toNat
  · exact ⟨_, _, execFaFeed_full b s hfull, execFaFeed_full b s' (hidx ▸ hfull), rfl, hidx, hbuf, .inr ⟨rfl, rfl⟩⟩
  obtain ⟨h, h'⟩ | ⟨k, h, h'⟩ | ⟨h, h'⟩ := execFaFeed_agree b s s' hidx fun a ha => hbuf a (by omega)
  · exact ⟨_, _, h, h', rfl, hidx, hbuf, .inr ⟨rfl, rfl⟩⟩
  · exact ⟨_, _, h, h', rfl, rfl, hstored, .inl rfl⟩
  · exact ⟨_, _, h, h', rfl, rfl, hstored, .inr ⟨rfl, rfl⟩⟩

theorem exec_faRead_reads (a : BitVec 9) (s s' : State) (h : s.bufByte a.toNat = s'.bufByte a.toNat) :
    ∃ r, exec (.faRead a) s = .next { s with rsp := some r } ∧
      exec (.faRead a) s' = .next { s' with rsp := some r } :=
  ⟨_, execFaRead_eq a s, h ▸ execFaRead_eq a s'⟩

/-! ## Field decoder -/

/-- A decode command writes the same response whatever the rest of the state (R117 to R119). -/
theorem exists_decodeAnswer_eq (x : Except FailStatus Word) :
    ∃ r, ∀ s, decodeAnswer s x = { s with rsp := some r } := by
  cases x with
  | ok v => exact ⟨.ok 0 (lowResult v), fun _ => rfl⟩
  | error st => exact ⟨.fail st, fun _ => rfl⟩

theorem messageBytes_agree (s s' : State) (hlen : s.msgLen = s'.msgLen)
    (hmsg : ∀ a, a < s.msgLen.toNat → s.bufByte a = s'.bufByte a) : s.messageBytes = s'.messageBytes := by
  unfold State.messageBytes
  rw [← hlen]
  exact bufBytes_congr s' s 0 _ fun x _ hx => hmsg x (by omega)

theorem exec_decode_reads (i : Instr) (s s' : State) (hi : i ∈ decAll) (hlen : s.msgLen = s'.msgLen)
    (hcap : s.msgLen.toNat ≤ 512) (hmsg : ∀ a, a < s.msgLen.toNat → s.bufByte a = s'.bufByte a) :
    ∃ r, exec i s = .next { s with rsp := some r } ∧ exec i s' = .next { s' with rsp := some r } := by
  obtain ⟨id, sg, scale, hexec⟩ := exec_eq_decodeCommand_of_mem_decAll hi
  obtain ⟨r, hr⟩ := exists_decodeAnswer_eq (decodeField id sg scale s.messageBytes)
  refine ⟨r, ?_, ?_⟩
  · rw [hexec, decodeCommand_ok id sg scale s hcap, hr]
  · rw [hexec, decodeCommand_ok id sg scale s' (hlen ▸ hcap), ← messageBytes_agree s s' hlen hmsg, hr]

/-! ## Sequence gap tracker -/

theorem exec_seqObserve_reads (c : Word) (s s' : State) (hlast : s.lastCounter = s'.lastCounter)
    (hmissed : s.missedCount = s'.missedCount) (hseen : s.seenAny = s'.seenAny) :
    ∃ t t', exec (.seqObserve c) s = .next t ∧ exec (.seqObserve c) s' = .next t' ∧ t.rsp = t'.rsp ∧
      t.lastCounter = t'.lastCounter ∧ t.missedCount = t'.missedCount ∧ t.seenAny = t'.seenAny := by
  have hgap : observedGap s c = observedGap s' c := by simp only [observedGap, hlast, hseen]
  have hafter : missedAfter s (observedGap s' c) = missedAfter s' (observedGap s' c) := by
    simp only [missedAfter, hmissed]
  exact ⟨_, _, rfl, rfl, by simp only [answerOk_rsp, hgap, hafter, hseen], rfl,
    by simp only [answerOk_missedCount, hgap, hafter], rfl⟩

/-! ## Commands without state -/

/-- `NOP`, the codec and the reserved opcodes answer the same in every state (R140, R180, R181). -/
theorem exec_eq_answer_of_stateless (i : Instr)
    (hi : i.opcode ∈ ([0x0, 0x7, 0x8, 0xB, 0xC, 0xD, 0xE, 0xF] : List (BitVec 4))) :
    ∃ r, ∀ s, exec i s = .next { s with rsp := some r } := by
  cases i
  case pktDecode n p =>
    by_cases hn : n.toNat = Config.pktLen
    · exact ⟨.ok 0 (packetFields p), fun _ => if_pos hn⟩
    · exact ⟨.fail .lengthMismatch, fun _ => if_neg hn⟩
  case nop | pktEncode | reservedB | reservedC | reservedD | reservedE | reservedF => exact ⟨_, fun _ => rfl⟩
  all_goals exact absurd hi (by simp [Instr.opcode])

/-- Settles O52, command by command of R33's column "read by". -/
theorem unitsReadOnlyTheirOwnState : Obligations.UnitsReadOnlyTheirOwnState := by
  refine ⟨exec_faFeed_reads, exec_faRead_reads, exec_decode_reads, exec_seqObserve_reads,
    fun _ _ => ⟨_, rfl, rfl⟩, fun _ _ => ⟨_, rfl, rfl⟩, fun i s s' hi => ?_⟩
  obtain ⟨r, hr⟩ := exec_eq_answer_of_stateless i hi
  exact ⟨r, hr s, hr s'⟩

/-! ## The response register -/

theorem execFaFeed_rsp (b : Byte) (s : State) (r : Option Response) :
    execFaFeed b { s with rsp := r } = execFaFeed b s := by
  obtain ⟨h, h'⟩ | ⟨k, h, h'⟩ | ⟨h, h'⟩ := execFaFeed_agree b { s with rsp := r } s rfl fun _ _ => rfl <;>
    exact h.trans h'.symm

theorem decodeCommand_rsp (id : List Byte) (sg : Bool) (scale : Word → Int → Word) (s : State)
    (r : Option Response) : decodeCommand id sg scale { s with rsp := r } = decodeCommand id sg scale s := by
  by_cases hlen : s.msgLen.toNat ≤ 512
  · obtain ⟨q, hq⟩ := exists_decodeAnswer_eq (decodeField id sg scale s.messageBytes)
    rw [decodeCommand_ok _ _ _ s hlen, decodeCommand_ok _ _ _ { s with rsp := r } hlen]
    exact congrArg Host.Outcome.next ((hq _).trans (hq s).symm)
  · rw [decodeCommand_error _ _ _ s (by omega)]
    exact decodeCommand_error _ _ _ { s with rsp := r } (by simpa using hlen)

/-- Settles O20: every command overwrites the response register and reads it nowhere. -/
theorem noCommandReadsAnEarlierResponse : Obligations.NoCommandReadsAnEarlierResponse := by
  intro i s r
  cases i
  case faFeed b => exact execFaFeed_rsp b s r
  case faRead a => exact (execFaRead_eq a _).trans (execFaRead_eq a s).symm
  case decPower | decCons | decGen => exact decodeCommand_rsp _ _ _ s r
  all_goals rfl

end Sys2Proof.Machine
end

section

/-! The message buffer as memory (20_memory.md): no access leaves it, and its canonical form stays. -/

namespace Sys2Proof.Machine

/-! ## Commands -/

/-- `FA_FEED` answers in every state: what does not fit is dropped (R48, R94). -/
theorem exists_execFaFeed_eq_next (b : Byte) (s : State) : ∃ t, execFaFeed b s = .next t := by
  by_cases hroom : s.idx.toNat < 512
  · exact ⟨_, execFaFeed_room b s hroom⟩
  · exact ⟨_, execFaFeed_full b s (Nat.le_of_not_lt hroom)⟩

/-- The one access that depends on the state is the read of the message, so a message inside the buffer is all that a command
needs (R48, R110, R190). -/
theorem exists_exec_eq_next (i : Instr) (s : State) (hlen : s.msgLen.toNat ≤ 512) : ∃ t, exec i s = .next t := by
  cases i
  case faFeed b => exact exists_execFaFeed_eq_next b s
  case faRead a => exact ⟨_, execFaRead_eq a s⟩
  case decPower | decCons | decGen => exact ⟨_, decodeCommand_ok _ _ _ s hlen⟩
  case pktDecode n p =>
    by_cases hn : n.toNat = Config.pktLen
    · exact ⟨_, if_pos hn⟩
    · exact ⟨_, if_neg hn⟩
  all_goals exact ⟨_, rfl⟩

/-- `FA_FEED` stores below 512 or not at all; no other command writes the buffer (R33, R40, R91). -/
theorem exec_keeps_wf (i : Instr) (s t : State) (hs : Memory.wf s.buf) (h : exec i s = .next t) :
    Memory.wf t.buf := by
  by_cases hfeed : ∃ b, i = .faFeed b
  · obtain ⟨b, rfl⟩ := hfeed
    obtain ⟨-, rfl⟩ | ⟨hroom, ⟨k, rfl⟩, -⟩ | ⟨hroom, rfl, -⟩ := execFaFeed_cases b s t h
    · exact hs
    · exact write_wf _ _ b hs hroom
    · exact write_wf _ _ b hs hroom
  · obtain ⟨hbuf, -⟩ := onlyListedCommandsWriteAnItem i s t h
    exact (hbuf (not_exists.mp hfeed)).1 ▸ hs

/-! ## The clock edge -/

/-- An edge stops only where the command it accepts stops. -/
theorem exists_step_eq_next (s : State) (h : ∃ u, exec (decode s.portIn.cmd) s.sampled = .next u) :
    ∃ t, step s = .next t := by
  cases hrst : s.portIn.rst with
  | true => exact ⟨_, step_reset s hrst⟩
  | false =>
    cases hrsp : s.rsp with
    | some r => exact ⟨_, step_busy s hrst r hrsp⟩
    | none =>
      cases hvalid : s.portIn.cmdValid with
      | true =>
        obtain ⟨u, hexec⟩ := h
        exact ⟨_, (step_accept s hrst hrsp hvalid).trans (congrArg startWait hexec)⟩
      | false => exact ⟨_, step_idle s hrst hrsp hvalid⟩

/-- Settles O15: of the invariant only `msg_len ≤ 512` is needed. -/
theorem noStepStopsFromTheInvariant : Obligations.NoStepStopsFromTheInvariant := by
  intro s hs
  obtain ⟨hbuf, -⟩ := (inv_iff s).mp hs
  have hlen : s.msgLen.toNat ≤ 512 := by
    obtain hzero | ⟨-, hcap⟩ := hbuf.msgLenInRange
    · omega
    · exact hcap
  exact exists_step_eq_next s (exists_exec_eq_next _ s.sampled hlen)

/-- Settles O16: a reset edge empties the buffer, an accepted command keeps the form, any other edge leaves the buffer. -/
theorem stepKeepsTheBufferCanonical : Obligations.StepKeepsTheBufferCanonical := by
  intro s t hs hstep
  obtain ⟨-, rfl⟩ | ⟨-, -, rfl⟩ | ⟨-, -, -, u, hexec, rfl⟩ | ⟨-, -, -, rfl⟩ := step_cases s t hstep
  · simp [Memory.wf]
  · obtain ⟨r, w, hphase, -⟩ := responsePhase_cases s.sampled s.portIn
    rw [hphase]
    exact hs
  · exact exec_keeps_wf _ s.sampled u hs hexec
  · exact hs

end Sys2Proof.Machine
end

section

/-! The command ports: what the decoder reads at each opcode, and the encoder as its inverse (30_encoding.md R62, R63, R67,
R68). -/

namespace Sys2Proof.Machine

/-! ## Byte lanes -/

theorem lanesNat_lt_pow (p : List Byte) : lanesNat p < 256 ^ p.length := by
  induction p with
  | nil => simp [lanesNat]
  | cons b bs ih =>
    have hb := b.isLt
    rw [lanesNat, List.length_cons, pow_succ]
    omega

/-- Digit `k` to the base 256 of the number on a data port is byte `k` of the sequence; past its end both are 0 (R67). -/
theorem lanesNat_div_pow_mod (p : List Byte) (k : Nat) : lanesNat p / 256 ^ k % 256 = (seqByte p k).toNat := by
  induction p generalizing k with
  | nil => simp [lanesNat, seqByte]
  | cons b bs ih =>
    have hb := b.isLt
    cases k with
    | zero => simp [lanesNat, seqByte]; omega
    | succ k =>
      have hshift : (b.toNat + 256 * lanesNat bs) / 256 = lanesNat bs := by omega
      rw [lanesNat, pow_succ', ← Nat.div_div_eq_div_mul, hshift]
      exact ih k

/-- Lane `k` of a sequence of at most twenty bytes is its byte `k` (R67). -/
theorem lane_ofLanes {p : List Byte} (hp : p.length ≤ 20) (k : Nat) : lane (ofLanes p) k = seqByte p k := by
  have hfits : lanesNat p < 2 ^ 160 :=
    calc lanesNat p < 256 ^ p.length := lanesNat_lt_pow p
      _ ≤ 256 ^ 20 := Nat.pow_le_pow_right (by decide) hp
      _ = 2 ^ 160 := by norm_num
  apply BitVec.eq_of_toNat_eq
  rw [lane, ofLanes, BitVec.extractLsb'_toNat, BitVec.toNat_ofNat, Nat.mod_eq_of_lt hfits, Nat.shiftRight_eq_div_pow,
    pow_mul]
  exact lanesNat_div_pow_mod p k

@[simp] theorem lanes_length (d : Lanes) (n : Nat) : (lanes d n).length = n := by simp [lanes]

theorem lanes_ofLanes {p : List Byte} (hp : p.length ≤ 20) : lanes (ofLanes p) p.length = p := by
  refine List.ext_getElem (lanes_length _ _) fun k _ hk => ?_
  simp [lanes, lane_ofLanes hp, seqByte, hk]

theorem lanes_eq_lanes_iff {d d' : Lanes} {n : Nat} :
    lanes d n = lanes d' n ↔ ∀ k, k < n → lane d k = lane d' k := by
  simp [lanes]

/-! ## Operands -/

theorem extractLsb'_setWidth_self {w v : Nat} (x : BitVec w) (h : w ≤ v) : (x.setWidth v).extractLsb' 0 w = x := by
  rw [BitVec.extractLsb'_setWidth_of_le (by omega), BitVec.extractLsb'_eq_self]

/-- The five operands of `PKT_ENCODE` are read from where the encoder puts them: each at the low end once the operands below it
are dropped (R68). -/
theorem decodePktEncode_append (power cons gen batt counter : Word) :
    decodePktEncode (counter ++ batt ++ gen ++ cons ++ power) = .pktEncode power cons gen batt counter := by
  unfold decodePktEncode
  congr 1
  · exact BitVec.extractLsb'_append_eq_right
  · refine (BitVec.extractLsb'_append_eq_of_le (w := 32) (by decide)).trans ?_
    exact BitVec.extractLsb'_append_eq_right
  · iterate 2 refine (BitVec.extractLsb'_append_eq_of_le (w := 32) (by decide)).trans ?_
    exact BitVec.extractLsb'_append_eq_right
  · iterate 3 refine (BitVec.extractLsb'_append_eq_of_le (w := 32) (by decide)).trans ?_
    exact BitVec.extractLsb'_append_eq_right
  · iterate 3 refine (BitVec.extractLsb'_append_eq_of_le (w := 32) (by decide)).trans ?_
    exact BitVec.extractLsb'_append_eq_left

/-- The five operands of `PKT_ENCODE` together are the whole data port (R68). -/
theorem dataPort_decodePktEncode (d : Lanes) : (decodePktEncode d).dataPort = d := by
  simp only [decodePktEncode, Instr.dataPort]
  rw [BitVec.extractLsb'_append_extractLsb'_eq_extractLsb', BitVec.extractLsb'_append_extractLsb'_eq_extractLsb',
    BitVec.extractLsb'_append_extractLsb'_eq_extractLsb', BitVec.extractLsb'_append_extractLsb'_eq_extractLsb']
  · exact BitVec.extractLsb'_eq_self
  all_goals rfl

theorem decodePktEncode_injective : Function.Injective decodePktEncode :=
  Function.LeftInverse.injective (g := Instr.dataPort) dataPort_decodePktEncode

/-- `PKT_DECODE` reads its bytes back from the lanes (R67, R68). -/
theorem decodePktDecode_ofLanes {n : Byte} {p : List Byte} (h : p.length = min n.toNat Config.pktLen) :
    decodePktDecode n (ofLanes p) = .pktDecode n p := by
  rw [decodePktDecode, ← h, lanes_ofLanes (by rw [h, pktLen_eq]; omega)]

/-- Two port values are the same `PKT_DECODE` exactly when `n` and the lanes it counts agree, at most twenty (R68). -/
theorem decodePktDecode_eq_iff {n n' : Byte} {d d' : Lanes} :
    decodePktDecode n d = decodePktDecode n' d' ↔ n = n' ∧ ∀ k, k < min n.toNat 20 → lane d k = lane d' k := by
  simp only [decodePktDecode, Instr.pktDecode.injEq, pktLen_eq]
  refine and_congr_right fun hn => ?_
  rw [← hn]
  exact lanes_eq_lanes_iff

/-- Settles O2: the opcode selects the command's own arm, and that arm reads each operand from where the encoder put it. -/
theorem decodeOfEncodeIsTheCommand : Obligations.DecodeOfEncodeIsTheCommand := by
  intro i hi
  cases i
  case faFeed b => exact congrArg Instr.faFeed (extractLsb'_setWidth_self b (by decide))
  case faRead a => exact congrArg Instr.faRead (extractLsb'_setWidth_self a (by decide))
  case pktEncode power cons gen batt counter => exact decodePktEncode_append power cons gen batt counter
  case pktDecode n p => exact decodePktDecode_ofLanes (beq_iff_eq.mp hi)
  case seqObserve c => exact congrArg Instr.seqObserve (extractLsb'_setWidth_self c (by decide))
  all_goals rfl

/-! ## The decoder, opcode by opcode -/

/-- Each of the sixteen opcodes has a command of its own (R63). -/
theorem decode_opcode (c : Command) : (decode c).opcode = c.op := by
  obtain ⟨⟨op⟩, len, data⟩ := c
  fin_cases op <;> rfl

theorem decode_of_op_faFeed {c : Command} (h : c.op = 0x1) : decode c = .faFeed (c.data.extractLsb' 0 8) := by
  simp [decode, h]

theorem decode_of_op_faRead {c : Command} (h : c.op = 0x3) : decode c = .faRead (c.data.extractLsb' 0 9) := by
  simp [decode, h]

theorem decode_of_op_pktEncode {c : Command} (h : c.op = 0x7) : decode c = decodePktEncode c.data := by
  simp [decode, h]

theorem decode_of_op_pktDecode {c : Command} (h : c.op = 0x8) : decode c = decodePktDecode c.len c.data := by
  simp [decode, h]

theorem decode_of_op_seqObserve {c : Command} (h : c.op = 0x9) :
    decode c = .seqObserve (c.data.extractLsb' 0 32) := by
  simp [decode, h]

/-- The one operand that can be ill-formed is the byte sequence of `PKT_DECODE`, and the decoder cuts it to its length (R68). -/
theorem decode_wellFormed (c : Command) : (decode c).wellFormed = true := by
  cases h : decode c
  case pktDecode n p =>
    have hop : c.op = 0x8 := by rw [← decode_opcode, h]; rfl
    obtain ⟨rfl, rfl⟩ := Instr.pktDecode.inj ((decode_of_op_pktDecode hop).symm.trans h)
    exact beq_iff_eq.mpr (lanes_length _ _)
  all_goals rfl

/-- Settles O3. -/
theorem everyPortValueDecodesToItsOpcode : Obligations.EveryPortValueDecodesToItsOpcode :=
  fun c => ⟨decode_wellFormed c, decode_opcode c⟩

/-- Port values that agree on the opcode and on the operand bits it names are the same command (R62, R68). -/
theorem decode_congr {c d : Command} (hop : c.op = d.op)
    (hfeed : c.op = 0x1 → c.data.extractLsb' 0 8 = d.data.extractLsb' 0 8)
    (hread : c.op = 0x3 → c.data.extractLsb' 0 9 = d.data.extractLsb' 0 9)
    (henc : c.op = 0x7 → c.data = d.data)
    (hdec : c.op = 0x8 → c.len = d.len ∧ ∀ k, k < min c.len.toNat 20 → lane c.data k = lane d.data k)
    (hobs : c.op = 0x9 → c.data.extractLsb' 0 32 = d.data.extractLsb' 0 32) : decode c = decode d := by
  unfold decode
  rw [← hop]
  split
  case h_2 h => rw [hfeed (BitVec.eq_of_toNat_eq h)]
  case h_4 h => rw [hread (BitVec.eq_of_toNat_eq h)]
  case h_8 h => rw [henc (BitVec.eq_of_toNat_eq h)]
  case h_9 h => exact decodePktDecode_eq_iff.mpr (hdec (BitVec.eq_of_toNat_eq h))
  case h_10 h => rw [hobs (BitVec.eq_of_toNat_eq h)]
  all_goals rfl

/-- Settles O4: the decoder's arm of the common opcode is injective in exactly the bits it names. -/
theorem onlyNamedBitsDecideTheCommand : Obligations.OnlyNamedBitsDecideTheCommand := by
  refine ⟨fun c d => ⟨fun h => ?_, fun ⟨hop, hfeed, hread, henc, hdec, hobs⟩ =>
    decode_congr hop hfeed hread henc hdec hobs⟩, fun c d s h => congrArg (exec · s) h⟩
  have hop : c.op = d.op := by rw [← decode_opcode c, h, decode_opcode]
  refine ⟨hop, fun hc => ?_, fun hc => ?_, fun hc => ?_, fun hc => ?_, fun hc => ?_⟩
  · rw [decode_of_op_faFeed hc, decode_of_op_faFeed (hop ▸ hc)] at h
    exact Instr.faFeed.inj h
  · rw [decode_of_op_faRead hc, decode_of_op_faRead (hop ▸ hc)] at h
    exact Instr.faRead.inj h
  · rw [decode_of_op_pktEncode hc, decode_of_op_pktEncode (hop ▸ hc)] at h
    exact decodePktEncode_injective h
  · rw [decode_of_op_pktDecode hc, decode_of_op_pktDecode (hop ▸ hc)] at h
    exact decodePktDecode_eq_iff.mp h
  · rw [decode_of_op_seqObserve hc, decode_of_op_seqObserve (hop ▸ hc)] at h
    exact Instr.seqObserve.inj h

/-- Settles O1: port values and table words are closed terms, decoded by evaluation. -/
theorem specWordsDecodeToTheirCommands : Obligations.SpecWordsDecodeToTheirCommands := by
  unfold Obligations.SpecWordsDecodeToTheirCommands
  decide

end Sys2Proof.Machine
end

section

/-! The handshake, edge by edge (30_encoding.md R61): what a step does at an edge whose inputs are known. -/

namespace Sys2Proof.Machine

/-! ## The inputs of an edge -/

theorem portIn_of_edges_cons {s : State} {p : PortIn} {rest : List PortIn} (h : s.edges = p :: rest) :
    s.portIn = p := by
  simp [State.portIn, h]

theorem sampled_of_edges_cons {s : State} {p : PortIn} {rest : List PortIn} (h : s.edges = p :: rest) :
    s.sampled = { s with edges := rest, draws := s.draws + 1 } := by
  simp [State.sampled, h]

/-- An edge that is listed before `n` others, or idle because the list is over, has `rst = 0` when none of the listed has 1. -/
theorem portIn_rst_eq_false {s : State} {n : Nat} (h : ∀ p, p ∈ s.edges.take (n + 1) → p.rst = false) :
    s.portIn.rst = false := by
  cases hedges : s.edges with
  | nil => simp [State.portIn, hedges, PortIn.idle]
  | cons p rest =>
    rw [portIn_of_edges_cons hedges]
    exact h p (by simp [hedges])

/-! ## The response phase -/

theorem responsePhase_waiting {s : State} (p : PortIn) (h : 0 < s.wait) :
    s.responsePhase p = { s with wait := s.wait - 1 } :=
  if_pos h

theorem responsePhase_held {s : State} {p : PortIn} (h : s.wait = 0) (hp : p.rspReady = false) :
    s.responsePhase p = s := by
  simp [State.responsePhase, h, hp]

theorem responsePhase_delivered {s : State} {p : PortIn} (h : s.wait = 0) (hp : p.rspReady = true) :
    s.responsePhase p = { s with rsp := none } := by
  simp [State.responsePhase, h, hp]

theorem rspPort_waiting {s : State} (p : PortIn) (h : 0 < s.wait) : s.rspPort p = none := by
  simp [State.rspPort, h]

theorem rspPort_presented {s : State} {p : PortIn} (h : s.wait = 0) (hp : p.rst = false) : s.rspPort p = s.rsp := by
  simp [State.rspPort, h, hp]

/-! ## A command in flight -/

theorem run_succ_of_step {s t : State} (n : Nat) (h : step s = .next t) :
    Host.Core.run core (n + 1) s = Host.Core.run core n t := by
  have hcore : core.step s = .next t := h
  simp only [Host.Core.run, hcore]

/-- The edges of the wait pass one by one and change nothing else (R61). -/
theorem run_waiting (n : Nat) (s : State) (r : Response) (hr : s.rsp = some r) (hn : s.wait = n)
    (hrst : ∀ p, p ∈ s.edges.take n → p.rst = false) :
    Host.Core.run core n s =
      .next { s with wait := 0, edges := s.edges.drop n, draws := s.draws + n } := by
  induction n generalizing s with
  | zero =>
    simp only [Host.Core.run, List.drop_zero, Nat.add_zero]
    rw [← hn]
  | succ n ih =>
    have hstep : step s = .next { s.sampled with wait := n } := by
      rw [step_busy s (portIn_rst_eq_false hrst) r hr, responsePhase_waiting _ (by simp [hn])]
      simp [hn]
    have hrest : ∀ p, p ∈ s.edges.tail.take n → p.rst = false := fun p hp =>
      hrst p (List.mem_of_mem_tail (by rwa [List.tail_take_eq_take_tail, Nat.add_sub_cancel]))
    rw [run_succ_of_step n hstep, ih { s.sampled with wait := n } hr rfl hrest]
    simp [Nat.add_assoc, Nat.add_comm n]

/-- Settles O9. -/
theorem commandInFlightGetsItsResponse : Obligations.CommandInFlightGetsItsResponse := by
  intro s r hr hrst
  exact ⟨_, run_waiting s.wait s r hr rfl hrst, rfl, fun q hq => (rspPort_presented rfl hq).trans hr, rfl, rfl, rfl, rfl,
    rfl, rfl⟩

/-- Settles O7: the edge of a command in flight is its response phase, waiting, holding or delivering. -/
theorem responseIsHeldUntilDelivered : Obligations.ResponseIsHeldUntilDelivered := by
  intro s p rest r hedges hrst hr
  have hport := portIn_of_edges_cons hedges
  have hsampled := sampled_of_edges_cons hedges
  have hstep : step s = .next (s.sampled.responsePhase p) := hport ▸ step_busy s (hport ▸ hrst) r hr
  refine ⟨by simp [State.cmdReady, hr], fun hwait => ⟨rspPort_waiting p hwait, ?_⟩,
    fun hwait => ⟨(rspPort_presented hwait hrst).trans hr, fun hp => ?_, fun hp => ?_⟩⟩
  · rw [hstep, responsePhase_waiting p (s := s.sampled) hwait, hsampled]
  · rw [hstep, responsePhase_held (s := s.sampled) hwait hp, hsampled]
  · rw [hstep, responsePhase_delivered (s := s.sampled) hwait hp, hsampled]

/-! ## No command in flight -/

/-- Settles O5. -/
theorem stepRunsTheDecodedCommand : Obligations.StepRunsTheDecodedCommand := by
  rintro s p rest i hedges hrst hvalid hr rfl
  have hport := portIn_of_edges_cons hedges
  rw [step_accept s (hport ▸ hrst) hr (hport ▸ hvalid), hport, sampled_of_edges_cons hedges]
  rfl

/-- What the decoder reads from a table word is what the command placed for that word decodes to. -/
theorem decode_tableCommand {nbits w : Nat} {i : Instr} (h : decodeTableWord nbits w = some i) :
    decode (tableCommand nbits w) = i := by
  unfold decodeTableWord decodeWord at h
  split at h
  · cases h
  · split at h
    · cases h
    · exact Option.some.inj h

/-- Settles O6: the placed command is accepted at once, and taking its edge leaves the inputs that stood there before. -/
theorem fetchWordIsExecutedNext : Obligations.FetchWordIsExecutedNext := by
  intro s nbits w i t hword hexec
  have hcmd : decode (s.withFetchWord nbits w).portIn.cmd = i := decode_tableCommand hword
  have hsampled : (s.withFetchWord nbits w).sampled = { s with rsp := none, wait := 0, draws := s.draws + 1 } := rfl
  rw [step_accept _ rfl rfl rfl, hcmd, hsampled, hexec]
  rfl

/-- Settles O8. -/
theorem idleEdgeChangesNothing : Obligations.IdleEdgeChangesNothing := by
  intro s hrst hvalid hr
  exact ⟨by simp [State.cmdReady, hrst, hr], by simp [State.rspPort, hr], step_idle s hrst hr hvalid⟩

end Sys2Proof.Machine
end

section

/-! The response of a command: there is one, and only the bits that R69 names for the command are set (30_encoding.md R64). -/

namespace Sys2Proof.Machine

/-- Settles O10. -/
theorem everyCommandIsAnswered : Obligations.EveryCommandIsAnswered :=
  exec_rsp_eq_some

/-! ## The ports of a response -/

@[simp] theorem flag_ok (f : BitVec 2) (d : Lanes) : (Response.ok f d).flag = f := rfl
@[simp] theorem data_ok (f : BitVec 2) (d : Lanes) : (Response.ok f d).data = d := rfl
@[simp] theorem flag_fail (st : FailStatus) : (Response.fail st).flag = 0 := rfl
@[simp] theorem data_fail (st : FailStatus) : (Response.fail st).data = 0 := rfl

/-! ## Widths of results -/

theorem lowResult_toNat_lt {w : Nat} (v : BitVec w) : (lowResult v).toNat < 2 ^ w := by
  rw [lowResult, BitVec.toNat_setWidth]
  exact (Nat.mod_le _ _).trans_lt v.isLt

theorem gapResult_toNat_lt (gap missed : Word) : (gapResult gap missed).toNat < 2 ^ 64 :=
  lowResult_toNat_lt (missed ++ gap)

theorem firstFlag_toNat_le (first : Bool) : (firstFlag first).toNat ≤ 1 := by
  cases first <;> decide

/-! ## Bits of the response, command by command -/

/-- `FA_FEED` without a message answers nothing; with one, `msg_valid` and a length of ten bits (R69, R93). -/
theorem execFaFeed_response (b : Byte) (s t : State) (h : execFaFeed b s = .next t) :
    t.rsp = some (.ok 0 0) ∨
      ∃ f n, t.rsp = some (.ok f (lowResult (n : Index))) ∧ (f = 1 ∨ f = 3) := by
  obtain ⟨-, rfl⟩ | ⟨-, ⟨k, rfl⟩, -⟩ | ⟨-, rfl, -⟩ := execFaFeed_cases b s t h
  · exact .inl rfl
  · exact .inr ⟨_, _, rfl, by cases k <;> decide⟩
  · exact .inl rfl

/-- A decode command answers no flag and a value of 32 bits, or fails with neither (R69, R117 to R121). -/
theorem decodeCommand_response (id : List Byte) (sg : Bool) (scale : Word → Int → Word) (s t : State) (r : Response)
    (h : decodeCommand id sg scale s = .next t) (hr : t.rsp = some r) : r.flag = 0 ∧ r.data.toNat < 2 ^ 32 := by
  obtain ⟨-, rfl⟩ := decodeCommand_next id sg scale s t h
  cases hd : decodeField id sg scale s.messageBytes with
  | ok v =>
    obtain rfl : Response.ok 0 (lowResult v) = r := by simpa [hd, decodeAnswer] using hr
    exact ⟨rfl, lowResult_toNat_lt v⟩
  | error st =>
    obtain rfl : Response.fail st = r := by simpa [hd, decodeAnswer] using hr
    exact ⟨rfl, Nat.two_pow_pos 32⟩

/-- Settles O21: the clauses that speak of the command's opcode are facts about its answer, the others are void. -/
theorem unnamedResultBitsAreZero : Obligations.UnnamedResultBitsAreZero := by
  intro i s t r h hr
  cases i
  case faFeed b =>
    obtain hnone | ⟨f, n, hsome, hf⟩ := execFaFeed_response b s t h
    · obtain rfl := Option.some.inj (hnone.symm.trans hr)
      simp [Instr.opcode]
    · obtain rfl := Option.some.inj (hsome.symm.trans hr)
      simpa [Instr.opcode] using ⟨.inr hf, lowResult_toNat_lt n⟩
  case faRead a =>
    obtain rfl := Host.Outcome.next.inj ((execFaRead_eq a s).symm.trans h)
    obtain rfl := Option.some.inj hr
    simpa [Instr.opcode] using lowResult_toNat_lt (s.bufByte a.toNat)
  case seqObserve c =>
    obtain rfl := execSeqObserve_cases c s t h
    obtain rfl := Option.some.inj hr
    simpa [Instr.opcode] using ⟨firstFlag_toNat_le _, gapResult_toNat_lt _ _⟩
  case decPower | decCons | decGen =>
    obtain ⟨hflag, hdata⟩ := decodeCommand_response _ _ _ s t r h hr
    simpa [Instr.opcode, hflag] using hdata
  case pktDecode n p =>
    by_cases hn : n.toNat = Config.pktLen
    · obtain rfl := Host.Outcome.next.inj ((if_pos hn).symm.trans h)
      obtain rfl := Option.some.inj hr
      simp [Instr.opcode]
    · obtain rfl := Host.Outcome.next.inj ((if_neg hn).symm.trans h)
      obtain rfl := Option.some.inj hr
      simp [Instr.opcode]
  all_goals
    obtain rfl := Host.Outcome.next.inj h
    obtain rfl := Option.some.inj hr
    simp [Instr.opcode]

/-! ## The reserved opcodes -/

/-- Settles O54. -/
theorem reservedOpcodesAnswerIllegalCmd : Obligations.ReservedOpcodesAnswerIllegalCmd := by
  refine ⟨fun i s hi => ?_, rfl⟩
  obtain rfl | rfl | rfl | rfl | rfl :
      i = .reservedB ∨ i = .reservedC ∨ i = .reservedD ∨ i = .reservedE ∨ i = .reservedF := by simpa using hi
  all_goals rfl

end Sys2Proof.Machine
end

section

/-! Frame assembler, one command at a time (40_frame_assembler.md R91 to R98): `FA_FEED` with room, on a full buffer, `FA_RESET`
and `FA_READ`. -/

namespace Sys2Proof.Machine

/-! ## `FA_RESET` and `FA_READ` -/

/-- Settles O30. -/
theorem faResetClearsTheCursorOnly : Obligations.FaResetClearsTheCursorOnly :=
  fun _ => rfl

/-- Settles O31: `FA_READ` answers `bufByte`, which is the byte written where there is one. -/
theorem faReadAnswersTheStoredByte : Obligations.FaReadAnswersTheStoredByte := by
  intro a s
  refine ⟨fun b hb => ?_, fun _ => ⟨_, execFaRead_eq a s⟩⟩
  have hbyte : s.bufByte a.toNat = b := by rw [bufByte_eq, hb, Option.getD_some]
  exact hbyte ▸ execFaRead_eq a s

/-! ## The response of a completed message -/

theorem toNat_ofNat_index {n : Nat} (h : n ≤ 512) : (BitVec.ofNat 10 n).toNat = n := by
  rw [BitVec.toNat_ofNat, Nat.mod_eq_of_lt (by omega)]

/-- A length of ten bits stands on `rsp_data` as the number it is (R69). -/
theorem lowResult_ofNat_index {n : Nat} (h : n ≤ 512) : lowResult (BitVec.ofNat 10 n) = BitVec.ofNat 160 n :=
  BitVec.setWidth_ofNat_of_le_of_lt (by omega) (by omega)

theorem feedFlag_true (k : Bool) : feedFlag true k = if k then 3 else 1 := by
  cases k <;> rfl

/-! ## The bytes before the cursor -/

theorem bufBytes_succ (s : State) (a n : Nat) : s.bufBytes a (n + 1) = s.bufBytes a n ++ [s.bufByte (a + n)] := by
  simp [State.bufBytes, List.range_succ]

/-- The byte stored right after a byte sequence extends it. -/
theorem stored_bufBytes_succ (s : State) (b : Byte) (a n : Nat) :
    (s.stored (a + n) b).bufBytes a (n + 1) = s.bufBytes a n ++ [b] := by
  rw [bufBytes_succ, stored_bufBytes_of_notMem _ _ _ _ _ (.inr le_rfl), stored_bufByte, if_pos rfl]

/-- The compare of R92 in terms of the bytes buffered before the one fed. -/
theorem stored_endMarker_iff (b : Byte) (s : State) :
    (5 ≤ s.idx.toNat + 1 ∧ (s.stored s.idx.toNat b).bufBytes (s.idx.toNat + 1 - 5) 5 = Config.endMarker) ↔
      4 ≤ s.idx.toNat ∧ s.bufBytes (s.idx.toNat - 4) 4 = [0x1B, 0x1B, 0x1B, 0x1B] ∧ b = 0x1A := by
  rw [Nat.add_le_add_iff_right (n := 1) (m := 4)]
  refine and_congr_right fun h4 => ?_
  have hlast := stored_bufBytes_succ s b (s.idx.toNat - 4) 4
  rw [Nat.sub_add_cancel h4] at hlast
  rw [Nat.add_sub_add_right _ 1 4, hlast]
  exact List.append_singleton_inj (bs := [0x1B, 0x1B, 0x1B, 0x1B])

/-! ## `FA_FEED` with room -/

/-- `FA_FEED` where the byte completes the end marker (R93, R96). -/
theorem execFaFeed_complete (b : Byte) (s : State) (hroom : s.idx.toNat < 512)
    (hmark : 5 ≤ s.idx.toNat + 1 ∧
      (s.stored s.idx.toNat b).bufBytes (s.idx.toNat + 1 - 5) 5 = Config.endMarker) :
    execFaFeed b s = .next (completeMessage (s.stored s.idx.toNat b) (s.idx.toNat + 1)
      (decide (8 ≤ s.idx.toNat + 1) && (s.stored s.idx.toNat b).bufBytes 0 8 == Config.startMarker)) :=
  (execFaFeed_room b s hroom).trans (congrArg _ (if_pos hmark))

/-- `FA_FEED` where the byte completes no end marker (R91). -/
theorem execFaFeed_accumulate (b : Byte) (s : State) (hroom : s.idx.toNat < 512)
    (hmark : ¬ (5 ≤ s.idx.toNat + 1 ∧
      (s.stored s.idx.toNat b).bufBytes (s.idx.toNat + 1 - 5) 5 = Config.endMarker)) :
    execFaFeed b s = .next (keepAccumulating (s.stored s.idx.toNat b) (s.idx.toNat + 1)) :=
  (execFaFeed_room b s hroom).trans (congrArg _ (if_neg hmark))

/-- What a completed message answers: its length, and whether it begins with the start marker (R69, R93, R96). -/
theorem completeMessage_response (s : State) {n : Nat} (hn : n ≤ 512) :
    (completeMessage s n (decide (8 ≤ n) && s.bufBytes 0 8 == Config.startMarker)).rsp =
      some (.ok (if 8 ≤ n ∧ s.bufBytes 0 8 = Config.startMarker then 3 else 1) (BitVec.ofNat 160 n)) := by
  rw [completeMessage_rsp, lowResult_ofNat_index hn, feedFlag_true]
  simp only [Bool.and_eq_true, decide_eq_true_eq, beq_iff_eq]

/-- Settles O22: the state is `completeMessage` of the state with the byte stored. -/
theorem faFeedCompletesAtTheEndMarker : Obligations.FaFeedCompletesAtTheEndMarker := by
  intro b s hroom h4 hfour hb
  have hmark := (stored_endMarker_iff b s).mpr ⟨h4, hfour, hb⟩
  exact ⟨_, execFaFeed_complete b s hroom hmark, rfl, toNat_ofNat_index hroom,
    completeMessage_response (s.stored s.idx.toNat b) hroom, stored_bufByte s _ b, rfl, rfl, rfl⟩

/-- Settles O23: the state is `keepAccumulating` of the state with the byte stored. -/
theorem faFeedAccumulatesOtherwise : Obligations.FaFeedAccumulatesOtherwise := by
  intro b s hroom hnot
  have hmark := mt (stored_endMarker_iff b s).mp hnot
  exact ⟨_, execFaFeed_accumulate b s hroom hmark, toNat_ofNat_index hroom, rfl, rfl, stored_bufByte s _ b,
    rfl, rfl, rfl⟩

/-! ## The full buffer -/

theorem execAll_feeds_cons {b : Byte} {s t : State} (h : execFaFeed b s = .next t) (bs : List Byte) :
    execAll (feeds (b :: bs)) s = execAll (feeds bs) t :=
  execAll_cons_next (.faFeed b) (feeds bs) s t h

/-- Once a full buffer has dropped a byte, further bytes change nothing at all (R94). -/
theorem execAll_feeds_of_full (s : State) (hfull : 512 ≤ s.idx.toNat) (bs : List Byte) :
    execAll (feeds bs) (s.answerOk 0 0) = .next (s.answerOk 0 0) := by
  induction bs with
  | nil => rfl
  | cons b bs ih => exact (execAll_feeds_cons (execFaFeed_full b (s.answerOk 0 0) hfull) bs).trans ih

/-- Settles O24: the first byte leaves the response, the others leave all as it is. -/
theorem fullBufferDropsEveryByte : Obligations.FullBufferDropsEveryByte := by
  intro s bs hfull hne
  obtain ⟨b, bs, rfl⟩ := List.exists_cons_of_ne_nil hne
  exact (execAll_feeds_cons (execFaFeed_full b s hfull.ge) bs).trans (execAll_feeds_of_full s hfull.ge bs)

/-- On a full buffer `FA_FEED` writes none of the assembler's items, so `FA_RESET` is the only command that does (R94). -/
theorem exec_keeps_full (i : Instr) (s t : State) (hfull : s.idx.toNat = 512) (h : exec i s = .next t)
    (hi : i ≠ .faReset) : t.idx = s.idx ∧ t.buf = s.buf ∧ t.msgLen = s.msgLen := by
  by_cases hfeed : ∃ b, i = .faFeed b
  · obtain ⟨b, rfl⟩ := hfeed
    obtain rfl := Host.Outcome.next.inj ((execFaFeed_full b s hfull.ge).symm.trans h)
    exact ⟨rfl, rfl, rfl⟩
  · obtain ⟨hbuf, hcursor, -⟩ := onlyListedCommandsWriteAnItem i s t h
    obtain ⟨hidx, hlen⟩ := hcursor (not_exists.mp hfeed) hi
    exact ⟨hidx, (hbuf (not_exists.mp hfeed)).1, hlen⟩

/-- Settles O25: an edge without `rst` touches the assembler only through the command it accepts. -/
theorem fullConditionIsAbsorbing : Obligations.FullConditionIsAbsorbing := by
  intro s t hfull hstep hrst hnot
  obtain ⟨hrst', -⟩ | ⟨-, ⟨r, hbusy⟩, rfl⟩ | ⟨-, hrsp, hvalid, u, hexec, rfl⟩ | ⟨-, -, hidle, rfl⟩ :=
    step_cases s t hstep
  · simp [hrst] at hrst'
  · obtain ⟨q, w, hphase, -⟩ := responsePhase_cases s.sampled s.portIn
    rw [hphase]
    refine ⟨rfl, rfl, rfl, ?_⟩
    rintro b ⟨-, hrsp, -, -⟩
    simp [hbusy] at hrsp
  · obtain ⟨hidx, hbuf, hlen⟩ :=
      exec_keeps_full _ s.sampled u hfull hexec fun hi => hnot ⟨hrst, hrsp, hvalid, hi⟩
    refine ⟨hidx, hbuf, hlen, ?_⟩
    rintro b ⟨-, -, -, hfeed⟩
    rw [hfeed] at hexec
    obtain rfl := Host.Outcome.next.inj ((execFaFeed_full b s.sampled hfull.ge).symm.trans hexec)
    rfl
  · refine ⟨rfl, rfl, rfl, ?_⟩
    rintro b ⟨-, -, hvalid, -⟩
    simp [hidle] at hvalid

end Sys2Proof.Machine
end

section

/-! The framing property (40_frame_assembler.md R95): what the assembler holds after a sequence of bytes fed from `idx = 0`. -/

namespace Sys2Proof.Machine

/-! ## The end marker in a byte sequence -/

/-- Where the marker stands in a sequence, five bytes at some offset are the marker. -/
theorem exists_endMarker_window {bs : List Byte} (h : Config.endMarker <:+: bs) :
    ∃ k, k + 5 ≤ bs.length ∧ (bs.drop k).take 5 = Config.endMarker := by
  obtain ⟨pre, post, rfl⟩ := h
  exact ⟨pre.length, by simp [Config.endMarker], by simp [Config.endMarker]⟩

/-! ## What the assembler holds -/

/-- The bytes appended since the cursor was last 0 are `bs` (R30, R91). -/
structure State.Buffered (s : State) (bs : List Byte) : Prop where
  idx : s.idx.toNat = bs.length
  bytes : s.bufBytes 0 bs.length = bs

theorem buffered_nil {s : State} (h : s.idx = 0) : s.Buffered [] where
  idx := by simp [h]
  bytes := rfl

/-- The bytes up to and with the byte stored at the cursor. -/
theorem State.Buffered.stored_bytes {s : State} {bs : List Byte} (h : s.Buffered bs) (b : Byte) :
    (s.stored s.idx.toNat b).bufBytes 0 (bs ++ [b]).length = bs ++ [b] := by
  have happend := stored_bufBytes_succ s b 0 bs.length
  rw [h.bytes, Nat.zero_add] at happend
  rw [h.idx, List.length_append]
  exact happend

theorem bufBytes_drop (s : State) (a n k : Nat) : (s.bufBytes a n).drop k = s.bufBytes (a + k) (n - k) := by
  refine List.ext_getElem (by simp) fun j _ _ => ?_
  simp [State.bufBytes, Nat.add_assoc]

/-- The compare of R92 in terms of the bytes fed: their last five are the marker. -/
theorem State.Buffered.stored_endMarker_iff {s : State} {bs : List Byte} (h : s.Buffered bs) (b : Byte) :
    (5 ≤ s.idx.toNat + 1 ∧ (s.stored s.idx.toNat b).bufBytes (s.idx.toNat + 1 - 5) 5 = Config.endMarker) ↔
      Config.endMarker <:+ bs ++ [b] := by
  have hlen : (bs ++ [b]).length = s.idx.toNat + 1 := by rw [h.idx, List.length_append, List.length_singleton]
  have hlast (h5 : 5 ≤ s.idx.toNat + 1) :
      (s.stored s.idx.toNat b).bufBytes (s.idx.toNat + 1 - 5) 5 = (bs ++ [b]).drop (s.idx.toNat + 1 - 5) := by
    rw [← h.stored_bytes b, hlen, bufBytes_drop, Nat.zero_add, Nat.sub_sub_self h5]
  constructor
  · rintro ⟨h5, hmark⟩
    rw [← hmark, hlast h5]
    exact List.drop_suffix _ _
  · intro hsuffix
    have h5 : 5 ≤ s.idx.toNat + 1 := hlen ▸ hsuffix.length_le
    exact ⟨h5, (hlast h5).trans (hlen ▸ List.suffix_iff_eq_drop.mp hsuffix).symm⟩

/-! ## Feeding a sequence from `idx = 0` -/

theorem execAll_feeds_append_singleton {b : Byte} {bs : List Byte} {s t : State} (h : execAll (feeds bs) s = .next t) :
    execAll (feeds (bs ++ [b])) s = execAll (feeds [b]) t := by
  rw [feeds, List.map_append]
  exact execAll_append _ _ s t h

/-- Up to the capacity, bytes that hold no end marker are all buffered, and none of them reports a message (R91, R92). -/
theorem execAll_feeds_of_unmarked (s : State) (hidx : s.idx = 0) (bs : List Byte) (hcap : bs.length ≤ 512)
    (hun : ¬ Config.endMarker <:+: bs) :
    ∃ t, execAll (feeds bs) s = .next t ∧ t.Buffered bs ∧ t.msgLen = s.msgLen ∧ (bs ≠ [] → t.rsp = some (.ok 0 0)) := by
  induction bs using List.reverseRecOn with
  | nil => exact ⟨s, rfl, buffered_nil hidx, rfl, fun hne => absurd rfl hne⟩
  | append_singleton bs b ih =>
    rw [List.length_append, List.length_singleton] at hcap
    obtain ⟨t, hfeeds, hbuf, hlen, -⟩ := ih (by omega) (mt (·.trans ⟨[], [b], rfl⟩) hun)
    have hroom : t.idx.toNat < 512 := by rw [hbuf.idx]; omega
    have hmark := mt (hbuf.stored_endMarker_iff b).mp (mt List.IsSuffix.isInfix hun)
    refine ⟨_, (execAll_feeds_append_singleton hfeeds).trans
      (execAll_feeds_cons (execFaFeed_accumulate b t hroom hmark) []), ⟨?_, hbuf.stored_bytes b⟩, hlen, fun _ => rfl⟩
    rw [keepAccumulating_idx, toNat_ofNat_index hroom, hbuf.idx, List.length_append, List.length_singleton]

/-- The byte that completes the end marker latches the whole sequence as the message (R93). -/
theorem State.Buffered.execFaFeed_message {t : State} {bs : List Byte} (h : t.Buffered bs) (b : Byte)
    (hcap : (bs ++ [b]).length ≤ 512) (hsuffix : Config.endMarker <:+ bs ++ [b]) :
    ∃ u f, execFaFeed b t = .next u ∧ u.rsp = some (.ok f (BitVec.ofNat 160 (bs ++ [b]).length)) ∧
      f.getLsbD 0 = true ∧ u.idx = 0 ∧ u.msgLen.toNat = (bs ++ [b]).length ∧
      u.bufBytes 0 (bs ++ [b]).length = bs ++ [b] := by
  have hlen : t.idx.toNat + 1 = (bs ++ [b]).length := by rw [h.idx, List.length_append, List.length_singleton]
  have hbytes := h.stored_bytes b
  have hmark := (h.stored_endMarker_iff b).mpr hsuffix
  rw [← hlen] at hcap hbytes ⊢
  refine ⟨_, _, execFaFeed_complete b t hcap hmark, completeMessage_response _ hcap, ?_, rfl,
    toNat_ofNat_index hcap, hbytes⟩
  split <;> rfl

/-- Settles O27: short of the last byte no marker is complete, so the bytes are only buffered; the last byte completes it. -/
theorem oneMessagePerMarkedByteSequence : Obligations.OneMessagePerMarkedByteSequence := by
  intro s bs hidx h5 hcap hlast honly
  have hun (n : Nat) (hn : n < bs.length) : ¬ Config.endMarker <:+: bs.take n := by
    intro hinside
    obtain ⟨k, hk, hwindow⟩ := exists_endMarker_window hinside
    rw [List.length_take_of_le hn.le] at hk
    rw [List.drop_take, List.take_take, Nat.min_eq_left (show 5 ≤ n - k by omega)] at hwindow
    exact honly k (by omega) hwindow
  refine ⟨fun n hpos hn => ?_, ?_⟩
  · have hlen : (bs.take n).length = n := List.length_take_of_le hn.le
    obtain ⟨t, hfeeds, hbuf, -, hrsp⟩ := execAll_feeds_of_unmarked s hidx (bs.take n) (by omega) (hun n hn)
    exact ⟨t, hfeeds, hbuf.idx.trans hlen, hrsp (List.ne_nil_of_length_pos (by omega))⟩
  · have hsuffix : Config.endMarker <:+ bs := hlast ▸ List.drop_suffix _ _
    obtain rfl | ⟨init, b, rfl⟩ := List.eq_nil_or_concat' bs
    · simp at h5
    · have hinit : ¬ Config.endMarker <:+: init := by simpa using hun init.length (by simp)
      obtain ⟨t, hfeeds, hbuf, -, -⟩ :=
        execAll_feeds_of_unmarked s hidx init ((List.sublist_append_left init [b]).length_le.trans hcap) hinit
      obtain ⟨u, f, hfeed, hmessage⟩ := hbuf.execFaFeed_message b hcap hsuffix
      exact ⟨u, f, (execAll_feeds_append_singleton hfeeds).trans (execAll_feeds_cons hfeed []), hmessage⟩

/-- Settles O28: no window of the 512 bytes is the marker, so all are buffered and the buffer is full. -/
theorem unmarkedBytesFillTheBuffer : Obligations.UnmarkedBytesFillTheBuffer := by
  intro s bs hidx hlen hnone
  have hun : ¬ Config.endMarker <:+: bs := by
    intro hinside
    obtain ⟨k, hk, hwindow⟩ := exists_endMarker_window hinside
    exact hnone k (by omega) hwindow
  obtain ⟨t, hfeeds, hbuf, hmsgLen, -⟩ := execAll_feeds_of_unmarked s hidx bs hlen.le hun
  have hfull : t.idx.toNat = 512 := hbuf.idx.trans hlen
  exact ⟨t, hfeeds, hfull, hmsgLen, fun b => execFaFeed_full b t hfull.ge⟩

end Sys2Proof.Machine
end

section

/-! Field decoder, the numbers (41_obis_field_decoder.md R113 to R116): what the accumulator holds and what the scaling makes of it,
in closed form. -/

namespace Sys2Proof.Machine

/-! ## Big-endian numbers -/

@[simp] theorem bigEndian_nil : bigEndian [] = 0 := rfl

theorem bigEndian_append_singleton (bytes : List Byte) (b : Byte) :
    bigEndian (bytes ++ [b]) = 256 * bigEndian bytes + b.toNat := by
  simp [bigEndian]

/-- The first byte is the most significant one. -/
theorem bigEndian_cons (b : Byte) (bytes : List Byte) :
    bigEndian (b :: bytes) = b.toNat * 256 ^ bytes.length + bigEndian bytes := by
  induction bytes using List.reverseRecOn with
  | nil => simp [bigEndian]
  | append_singleton bytes c ih =>
    rw [← List.cons_append, bigEndian_append_singleton, bigEndian_append_singleton, ih, List.length_append,
      List.length_singleton]
    ring

theorem bigEndian_lt_pow (bytes : List Byte) : bigEndian bytes < 256 ^ bytes.length := by
  induction bytes using List.reverseRecOn with
  | nil => simp
  | append_singleton bytes b ih =>
    rw [bigEndian_append_singleton, List.length_append, List.length_singleton, pow_succ]
    have hb := b.isLt
    omega

/-- The sign of a non-empty byte sequence is the top bit of its first byte (R72). -/
theorem two_mul_bigEndian_lt_iff (b : Byte) (bytes : List Byte) :
    2 * bigEndian (b :: bytes) < 256 ^ (b :: bytes).length ↔ b.msb = false := by
  have hrest := bigEndian_lt_pow bytes
  rw [bigEndian_cons, List.length_cons, pow_succ, BitVec.msb_eq_false_iff_two_mul_lt]
  constructor
  · intro h
    by_contra hb
    have hhigh : 128 * 256 ^ bytes.length ≤ b.toNat * 256 ^ bytes.length := Nat.mul_le_mul_right _ (by omega)
    omega
  · intro hb
    have hlow : b.toNat * 256 ^ bytes.length ≤ 127 * 256 ^ bytes.length := Nat.mul_le_mul_right _ (by omega)
    omega

theorem signedBigEndian_bounds (bytes : List Byte) :
    -(256 ^ bytes.length : Int) ≤ 2 * signedBigEndian bytes ∧ 2 * signedBigEndian bytes < 256 ^ bytes.length := by
  have hlt : (bigEndian bytes : Int) < 256 ^ bytes.length := by exact_mod_cast bigEndian_lt_pow bytes
  unfold signedBigEndian
  split
  case isTrue h =>
    have hhalf : (2 * bigEndian bytes : Int) < 256 ^ bytes.length := by exact_mod_cast h
    omega
  case isFalse h =>
    have hhalf : (256 ^ bytes.length : Int) ≤ 2 * bigEndian bytes := by exact_mod_cast not_lt.mp h
    omega

theorem pow_256_le {n : Nat} (h : n ≤ 4) : 256 ^ n ≤ 2 ^ 32 :=
  Nat.pow_le_pow_right (n := 256) (by decide) h

/-! ## The accumulator -/

/-- Taking in one more byte, on a number kept to 32 bits (R113). -/
theorem accumStep_ofInt (z : Int) (b : Byte) :
    accumStep (BitVec.ofInt 32 z) b = BitVec.ofInt 32 (256 * z + b.toNat) := by
  have hb := b.isLt
  refine BitVec.eq_of_toNat_eq ?_
  rw [accumStep, BitVec.toNat_append, ← Nat.shiftLeft_add_eq_or_of_lt hb, BitVec.extractLsb'_toNat, BitVec.toNat_ofInt,
    BitVec.toNat_ofInt, Nat.shiftLeft_eq]
  omega

/-- The accumulator after all bytes: its seed moved up past them, plus their number, kept to 32 bits. -/
theorem foldl_accumStep_ofInt (z : Int) (bytes : List Byte) :
    bytes.foldl accumStep (BitVec.ofInt 32 z) = BitVec.ofInt 32 (z * 256 ^ bytes.length + bigEndian bytes) := by
  induction bytes using List.reverseRecOn with
  | nil => simp
  | append_singleton bytes b ih =>
    rw [List.foldl_append, ih, List.foldl_cons, List.foldl_nil, accumStep_ofInt, bigEndian_append_singleton,
      List.length_append, List.length_singleton]
    congr 1
    push_cast
    ring

/-- The seed of the signed path is −1 or 0: the part of a two's-complement number above its bytes. -/
theorem accumSeed_signed (bytes : List Byte) :
    accumSeed bytes true = BitVec.ofInt 32 (if 2 * bigEndian bytes < 256 ^ bytes.length then 0 else -1) := by
  cases bytes with
  | nil => rfl
  | cons b bytes =>
    simp only [two_mul_bigEndian_lt_iff]
    cases hb : b.msb <;> simp [accumSeed, hb]

theorem accumSeed_unsigned (bytes : List Byte) : accumSeed bytes false = BitVec.ofInt 32 0 := by
  cases bytes <;> rfl

/-- The signed accumulator, whatever the number of bytes: the low 32 bits of the two's-complement number. -/
theorem accum_signed (m : List Byte) (i n : Nat) :
    accum m i n true = BitVec.ofInt 32 (signedBigEndian (valueBytes m i n)) := by
  rw [accum, accumSeed_signed, foldl_accumStep_ofInt, signedBigEndian]
  split
  · rw [zero_mul, zero_add]
  · rw [neg_one_mul, neg_add_eq_sub]

/-- The unsigned accumulator, whatever the number of bytes: the low 32 bits of the number. -/
theorem accum_unsigned (m : List Byte) (i n : Nat) :
    accum m i n false = BitVec.ofNat 32 (bigEndian (valueBytes m i n)) := by
  rw [accum, accumSeed_unsigned, foldl_accumStep_ofInt, zero_mul, zero_add, BitVec.ofInt_natCast]

theorem valueBytes_length_le (m : List Byte) (i n : Nat) : (valueBytes m i n).length ≤ n :=
  List.length_take_le _ _

theorem toInt_accum_signed (m : List Byte) (i : Nat) {n : Nat} (h : n ≤ 4) :
    (accum m i n true).toInt = signedBigEndian (valueBytes m i n) := by
  have hpow : (256 ^ (valueBytes m i n).length : Int) ≤ 2 ^ 32 := by
    exact_mod_cast pow_256_le ((valueBytes_length_le m i n).trans h)
  obtain ⟨hlow, hhigh⟩ := signedBigEndian_bounds (valueBytes m i n)
  rw [accum_signed]
  exact BitVec.toInt_ofInt_eq_self (by decide) (by omega) (by omega)

theorem toNat_accum_unsigned (m : List Byte) (i : Nat) {n : Nat} (h : n ≤ 4) :
    (accum m i n false).toNat = bigEndian (valueBytes m i n) := by
  have hpow := pow_256_le ((valueBytes_length_le m i n).trans h)
  rw [accum_unsigned, BitVec.toNat_ofNat, Nat.mod_eq_of_lt ((bigEndian_lt_pow _).trans_le hpow)]

/-- Settles O37: at most four bytes leave the 32 bits of the accumulator nothing to cut off. -/
theorem accumIsTheBigEndianValue : Obligations.AccumIsTheBigEndianValue :=
  fun m i _ hn => ⟨toInt_accum_signed m i hn, toNat_accum_unsigned m i hn⟩

/-! ## The scaling -/

/-- The multiplications wrap at every step, and all of them as one wraps to the same 32 bits (R115). -/
theorem timesTen_eq (k : Nat) (v : Word) : timesTen k v = BitVec.ofInt 32 (v.toInt * 10 ^ k) := by
  induction k generalizing v with
  | zero => rw [pow_zero, mul_one, BitVec.ofInt_toInt, timesTen]
  | succ k ih => rw [timesTen, ih, wrap32, BitVec.ofInt_mul, BitVec.ofInt_toInt, ← BitVec.ofInt_mul, mul_assoc, ← pow_succ']

/-- Truncating divisions by positive divisors compose (R115). -/
theorem tdiv_tdiv_natCast (v : Int) (m n : Nat) : (v.tdiv m).tdiv n = v.tdiv (m * n : Nat) := by
  obtain ⟨a, rfl | rfl⟩ := v.eq_nat_or_neg <;>
    simp only [Int.neg_tdiv, ← Int.ofNat_tdiv, Nat.div_div_eq_div_mul]

theorem natAbs_toInt_le (v : Word) : v.toInt.natAbs ≤ 2 ^ 31 := by
  have hlow := v.le_toInt
  have hhigh := v.toInt_lt
  omega

/-- The quotient of a division step fits 32 bits (R115: the division never overflows). -/
theorem toInt_wrap32_quot_ten (v : Word) : (wrap32 (quot v.toInt 10)).toInt = quot v.toInt 10 := by
  have habs : (quot v.toInt 10).natAbs = v.toInt.natAbs / 10 := Int.natAbs_tdiv _ _
  have hv := natAbs_toInt_le v
  exact BitVec.toInt_ofInt_eq_self (by decide) (by omega) (by omega)

/-- All divisions as one (R115). -/
theorem toInt_overTen (k : Nat) (v : Word) : (overTen k v).toInt = v.toInt.tdiv (10 ^ k) := by
  induction k generalizing v with
  | zero => rw [pow_zero, Int.tdiv_one, overTen]
  | succ k ih =>
    have hcompose := tdiv_tdiv_natCast v.toInt 10 (10 ^ k)
    rw [← pow_succ'] at hcompose
    rw [overTen, ih, toInt_wrap32_quot_ten]
    exact_mod_cast hcompose

/-- `ScaleSigned` without its loops (R115). -/
theorem scaleSigned_eq (v : Word) (sc : Int) : scaleSigned v sc = BitVec.ofInt 32 (decimalShift v.toInt sc) := by
  unfold scaleSigned decimalShift
  obtain hpos | rfl | hneg := lt_trichotomy 0 sc
  · rw [if_pos hpos, if_pos hpos.le, timesTen_eq, show sc.natAbs = sc.toNat by omega]
  · simp
  · rw [if_neg hneg.not_gt, if_pos hneg, if_neg hneg.not_ge, show (-sc).toNat = sc.natAbs by omega, ← toInt_overTen,
      BitVec.ofInt_toInt]

/-- Ten digits or more dropped leave nothing of a 32-bit number (R115). -/
theorem scaleSigned_of_le_neg_ten (v : Word) {sc : Int} (h : sc ≤ -10) : scaleSigned v sc = 0 := by
  have hpow : 10 ^ 10 ≤ 10 ^ (-sc).toNat := Nat.pow_le_pow_right (by decide) (by omega)
  have hv := natAbs_toInt_le v
  have hquot : v.toInt.tdiv (10 ^ (-sc).toNat) = 0 := by
    rw [← Int.natAbs_eq_zero, Int.natAbs_tdiv, Int.natAbs_pow]
    exact Nat.div_eq_of_lt (by simp; omega)
  rw [scaleSigned_eq, decimalShift, if_neg (by omega), hquot]
  rfl

/-- From `10^32` on the factor is a multiple of `2^32` (R115). -/
theorem scaleSigned_of_thirtyTwo_le (v : Word) {sc : Int} (h : 32 ≤ sc) : scaleSigned v sc = 0 := by
  have hdvd : (2 ^ 32 : Int) ∣ 10 ^ sc.toNat :=
    (pow_dvd_pow_of_dvd (by decide) 32).trans (pow_dvd_pow 10 (by omega))
  obtain ⟨c, hc⟩ := hdvd
  have hfactor : BitVec.ofInt 32 (2 ^ 32) = 0#32 := by decide
  rw [scaleSigned_eq, decimalShift, if_pos (by omega), hc, BitVec.ofInt_mul, BitVec.ofInt_mul, hfactor]
  exact (congrArg _ BitVec.zero_mul).trans BitVec.mul_zero

/-- Settles O38: the closed form, and what it is at the two ends of the scaler's range. -/
theorem scaleSignedIsOneDecimalShift : Obligations.ScaleSignedIsOneDecimalShift :=
  fun v sc => ⟨scaleSigned_eq v sc, scaleSigned_of_le_neg_ten v, scaleSigned_of_thirtyTwo_le v⟩

/-- `ScaleEnergy` as one multiplication (R116). -/
theorem scaleEnergy_eq (u : Word) (sc : Int) : scaleEnergy u sc = BitVec.ofNat 32 (u.toNat * energyFactor sc) := by
  unfold scaleEnergy energyFactor
  split
  case isTrue h3 => simp [h3]
  case isFalse =>
    split
    · rfl
    · split
      · rfl
      · rw [mul_one, BitVec.ofNat_toNat, BitVec.setWidth_eq]

end Sys2Proof.Machine
end

section

/-! Field decoder, the search and the three commands (41_obis_field_decoder.md R110 to R124): what is found in a message, and what
`DEC_POWER`, `DEC_CONS` and `DEC_GEN` answer on the state. -/

namespace Sys2Proof.Machine

/-! ## The search -/

theorem find_eq_some_iff (m id : List Byte) (i : Nat) :
    find m id = some i ↔ i + 10 < m.length ∧ (m.drop i).take 5 = id ∧ ∀ j, j < i → (m.drop j).take 5 ≠ id := by
  simp only [find, List.find?_range_eq_some, List.mem_range, searchRoom_eq, idLen_eq, beq_iff_eq, Bool.not_eq_true',
    beq_eq_false_iff_ne, Nat.lt_sub_iff_add_lt]
  exact and_left_comm

theorem find_eq_none_iff (m id : List Byte) :
    find m id = none ↔ ∀ i, i + 10 < m.length → (m.drop i).take 5 ≠ id := by
  simp only [find, List.find?_range_eq_none, searchRoom_eq, idLen_eq, Bool.not_eq_true', beq_eq_false_iff_ne,
    Nat.lt_sub_iff_add_lt]

/-- Settles O36. The bound `L − 10` on natural numbers is `i + 10 < L`, also for `L ≤ 10`. -/
theorem findReturnsTheFirstMatch : Obligations.FindReturnsTheFirstMatch :=
  fun m id => ⟨find_eq_some_iff m id, find_eq_none_iff m id⟩

/-! ## The field found in a message -/

theorem decodeField_of_find_none {m id : List Byte} (h : find m id = none) (sg : Bool) (scale : Word → Int → Word) :
    decodeField id sg scale m = .ok 0 := by
  rw [decodeField, h]

theorem decodeField_of_find_some {m id : List Byte} {i : Nat} (h : find m id = some i) (sg : Bool)
    (scale : Word → Int → Word) : decodeField id sg scale m = decodeFound sg scale m i := by
  rw [decodeField, h]

theorem decodeFound_long {m : List Byte} {i : Nat} (h : 4 < vlen m i) (sg : Bool) (scale : Word → Int → Word) :
    decodeFound sg scale m i = .error .decLenInvalid :=
  if_pos h

theorem decodeFound_short {m : List Byte} {i : Nat} (h : vlen m i ≤ 4) (sg : Bool) (scale : Word → Int → Word) :
    decodeFound sg scale m i = .ok (scale (accum m i (vlen m i) sg) (scaler m i (vlen m i))) :=
  if_neg h.not_gt

/-- The power path on a field of at most four value bytes (R117). -/
theorem decodeFound_power {m : List Byte} {i : Nat} (h : vlen m i ≤ 4) :
    decodeFound true scaleSigned m i = .ok (BitVec.ofInt 32
      (decimalShift (signedBigEndian (valueBytes m i (vlen m i))) (scaler m i (vlen m i)))) := by
  rw [decodeFound_short h, scaleSigned_eq, toInt_accum_signed m i h]

/-- The energy paths on a field of at most four value bytes (R118, R119). -/
theorem decodeFound_energy {m : List Byte} {i : Nat} (h : vlen m i ≤ 4) :
    decodeFound false scaleEnergy m i = .ok (BitVec.ofNat 32
      (bigEndian (valueBytes m i (vlen m i)) * energyFactor (scaler m i (vlen m i)))) := by
  rw [decodeFound_short h, scaleEnergy_eq, toNat_accum_unsigned m i h]

/-! ## A field written out in a message -/

theorem seqByte_add (m : List Byte) (i k : Nat) : seqByte m (i + k) = seqByte (m.drop i) k := by
  simp [seqByte]

section

variable {m id value rest : List Byte} {tl sc : Byte} {i : Nat} (hid : id.length = 5)
  (hfield : m.drop i = id ++ tl :: (value ++ sc :: rest))

include hid hfield

theorem vlen_of_field : vlen m i = (tl.extractLsb' 0 4).toNat := by
  rw [vlen, idLen_eq, seqByte_add, hfield]
  simp [seqByte, ← hid]

theorem valueBytes_of_field : valueBytes m i value.length = value := by
  rw [valueBytes, idLen_eq, Nat.add_assoc, ← List.drop_drop, hfield, ← hid]
  simp

theorem scaler_of_field : scaler m i value.length = sc.toInt := by
  rw [scaler, idLen_eq, Nat.add_assoc, Nat.add_assoc, seqByte_add, hfield, ← hid]
  simp [seqByte, Nat.add_comm 1]

end

/-- Settles O39: from the identifier's offset to the end of the marker there are at least 12 bytes, so the search bound does not
hide it, and each piece of the field is read where it was written. -/
theorem fieldBeforeTheMarkerIsDecoded : Obligations.FieldBeforeTheMarkerIsDecoded := by
  intro pre value id mid tl sc hid hvalue htl hfirst
  generalize hm : pre ++ id ++ [tl] ++ value ++ [sc] ++ mid ++ Config.endMarker = m at hfirst ⊢
  have hfield : m.drop pre.length = id ++ tl :: (value ++ sc :: (mid ++ Config.endMarker)) := by simp [← hm]
  have hfind : find m id = some pre.length := by
    refine (find_eq_some_iff m id pre.length).mpr ⟨?_, ?_, hfirst⟩
    · have hlen := congrArg List.length hm
      simp only [List.length_append, List.length_cons, List.length_nil, Config.endMarker] at hlen
      omega
    · rw [hfield, ← hid, List.take_left]
  have hvlen : vlen m pre.length = value.length := (vlen_of_field hid hfield).trans htl
  have hshort : vlen m pre.length ≤ 4 := hvlen ▸ hvalue
  rw [decodeField_of_find_some hfind, decodeField_of_find_some hfind, decodeFound_power hshort, decodeFound_energy hshort,
    hvlen, valueBytes_of_field hid hfield, scaler_of_field hid hfield]
  exact ⟨rfl, rfl⟩

/-! ## The message in the buffer -/

@[simp] theorem messageBytes_length (s : State) : s.messageBytes.length = s.msgLen.toNat :=
  bufBytes_length s 0 _

theorem bufBytes_take (s : State) (a n k : Nat) : (s.bufBytes a n).take k = s.bufBytes a (min k n) := by
  rw [State.bufBytes, ← List.map_take, List.take_range, State.bufBytes]

/-- A part of the message is that part of the buffer (R110). -/
theorem messageBytes_window (s : State) {a n : Nat} (h : a + n ≤ s.msgLen.toNat) :
    (s.messageBytes.drop a).take n = s.bufBytes a n := by
  rw [State.messageBytes, bufBytes_drop, bufBytes_take, Nat.zero_add, Nat.min_eq_left (by omega)]

theorem seqByte_messageBytes (s : State) {a : Nat} (h : a < s.msgLen.toNat) : seqByte s.messageBytes a = s.bufByte a := by
  simp [seqByte, State.messageBytes, State.bufBytes, h]

theorem find_messageBytes_of_fieldAbsent {s : State} {id : List Byte} (h : s.fieldAbsent id) :
    find s.messageBytes id = none := by
  refine (find_eq_none_iff _ _).mpr fun i hi => ?_
  rw [messageBytes_length] at hi
  rw [messageBytes_window s (by omega)]
  exact h i (by omega)

theorem find_messageBytes_of_fieldAt {s : State} {id : List Byte} {i : Nat} (h : s.fieldAt id i) :
    find s.messageBytes id = some i := by
  obtain ⟨hroom, hat, hfirst⟩ := h
  refine (find_eq_some_iff _ _ _).mpr ⟨by rwa [messageBytes_length], ?_, fun j hj => ?_⟩
  · rwa [messageBytes_window s (by omega)]
  · rw [messageBytes_window s (by omega)]
    exact hfirst j hj

/-! Every read of a found field is inside the message (R122). -/

theorem vlen_messageBytes {s : State} {i : Nat} (h : i + 10 < s.msgLen.toNat) : vlen s.messageBytes i = s.fieldVlen i := by
  rw [vlen, idLen_eq, seqByte_messageBytes s (by omega), State.fieldVlen]

theorem valueBytes_messageBytes {s : State} {i : Nat} (h : i + 10 < s.msgLen.toNat) (hv : s.fieldVlen i ≤ 4) :
    valueBytes s.messageBytes i (s.fieldVlen i) = s.fieldValue i :=
  messageBytes_window s (a := i + 6) (by omega)

theorem scaler_messageBytes {s : State} {i : Nat} (h : i + 10 < s.msgLen.toNat) (hv : s.fieldVlen i ≤ 4) :
    scaler s.messageBytes i (s.fieldVlen i) = s.fieldScaler i := by
  rw [scaler, idLen_eq, seqByte_messageBytes s (by omega), State.fieldScaler]

/-! ## The commands -/

section

variable {s : State} {id : List Byte} {i : Nat} (hcap : s.msgLen.toNat ≤ 512)

include hcap

theorem decodeCommand_of_fieldAbsent (h : s.fieldAbsent id) (sg : Bool) (scale : Word → Int → Word) :
    decodeCommand id sg scale s = .next (s.answerOk 0 0) := by
  rw [decodeCommand_ok _ _ _ _ hcap, decodeField_of_find_none (find_messageBytes_of_fieldAbsent h)]
  rfl

theorem decodeCommand_of_fieldAt (h : s.fieldAt id i) (sg : Bool) (scale : Word → Int → Word) :
    decodeCommand id sg scale s = .next (decodeAnswer s (decodeFound sg scale s.messageBytes i)) := by
  rw [decodeCommand_ok _ _ _ _ hcap, decodeField_of_find_some (find_messageBytes_of_fieldAt h)]

theorem decodeCommand_long (h : s.fieldAt id i) (hv : 4 < s.fieldVlen i) (sg : Bool) (scale : Word → Int → Word) :
    decodeCommand id sg scale s = .next (raise s .decLenInvalid) := by
  have hlong : 4 < vlen s.messageBytes i := by rwa [vlen_messageBytes h.1]
  rw [decodeCommand_of_fieldAt hcap h, decodeFound_long hlong]
  rfl

theorem decodeCommand_power (h : s.fieldAt id i) (hv : s.fieldVlen i ≤ 4) :
    decodeCommand id true scaleSigned s = .next (s.answerOk 0 (lowResult
      (BitVec.ofInt 32 (decimalShift (signedBigEndian (s.fieldValue i)) (s.fieldScaler i))))) := by
  have hvlen := vlen_messageBytes h.1
  rw [decodeCommand_of_fieldAt hcap h, decodeFound_power (hvlen ▸ hv), hvlen, valueBytes_messageBytes h.1 hv,
    scaler_messageBytes h.1 hv]
  rfl

theorem decodeCommand_energy (h : s.fieldAt id i) (hv : s.fieldVlen i ≤ 4) :
    decodeCommand id false scaleEnergy s = .next (s.answerOk 0 (lowResult
      (BitVec.ofNat 32 (bigEndian (s.fieldValue i) * energyFactor (s.fieldScaler i))))) := by
  have hvlen := vlen_messageBytes h.1
  rw [decodeCommand_of_fieldAt hcap h, decodeFound_energy (hvlen ▸ hv), hvlen, valueBytes_messageBytes h.1 hv,
    scaler_messageBytes h.1 hv]
  rfl

end

/-- Settles O32, one search for each of the three identifiers. -/
theorem absentFieldDecodesToZero : Obligations.AbsentFieldDecodesToZero :=
  fun _ hcap => ⟨fun h => decodeCommand_of_fieldAbsent hcap h true scaleSigned,
    fun h => decodeCommand_of_fieldAbsent hcap h false scaleEnergy,
    fun h => decodeCommand_of_fieldAbsent hcap h false scaleEnergy⟩

/-- Settles O33: `DEC_POWER` is the signed path with the decimal shift. -/
theorem decPowerIsTheShiftedSignedValue : Obligations.DecPowerIsTheShiftedSignedValue :=
  fun _ _ hcap hat hv => decodeCommand_power hcap hat hv

/-- Settles O34: the two commands differ in the identifier alone (R119). -/
theorem decEnergyIsTheScaledUnsignedValue : Obligations.DecEnergyIsTheScaledUnsignedValue :=
  fun _ _ hcap hv => ⟨fun hat => decodeCommand_energy hcap hat hv, fun hat => decodeCommand_energy hcap hat hv⟩

/-- Settles O35: the length check of the first match is the same in the three commands (R198). -/
theorem longValueIsRefusedByStatus : Obligations.LongValueIsRefusedByStatus :=
  fun _ _ hcap hv => ⟨fun hat => decodeCommand_long hcap hat hv true scaleSigned,
    fun hat => decodeCommand_long hcap hat hv false scaleEnergy,
    fun hat => decodeCommand_long hcap hat hv false scaleEnergy⟩

/-- Settles O40: the same message gives both states the same response. -/
theorem decodeReadsOnlyTheMessage : Obligations.DecodeReadsOnlyTheMessage := by
  intro i s s' hi hlen hcap hmsg
  obtain ⟨r, hr, hr'⟩ := exec_decode_reads i s s' hi hlen hcap hmsg
  exact ⟨_, _, hr, hr', rfl⟩

end Sys2Proof.Machine
end

section

/-! The wire packet codec (42_wire_packet_codec.md R140 to R146): on twenty bytes both ways are the placing of bytes on the lanes
of a data port, so each undoes the other. -/

namespace Sys2Proof.Machine

/-! ## Lanes of a data port -/

/-- The twenty lanes are the whole port (R67). -/
theorem lanes_ext {d e : Lanes} (h : ∀ k, k < 20 → lane d k = lane e k) : d = e := by
  refine BitVec.eq_of_getLsbD_eq fun i hi => ?_
  have hlane := congrArg (·.getLsbD (i % 8)) (h (i / 8) (by omega))
  simpa [lane, Nat.mod_lt, Nat.div_add_mod] using hlane

/-- The bytes read off the lanes of a port, put on a port again, are that port (R67). -/
theorem ofLanes_lanes (d : Lanes) : ofLanes (lanes d 20) = d :=
  lanes_ext fun k hk => by rw [lane_ofLanes (lanes_length d 20).le]; simp [seqByte, lanes, hk]

/-- Lane `4 * o + k` is byte `k` of the 32-bit field `o` (R67, R69). -/
theorem extractLsb'_field_byte (d : Lanes) (o : Nat) {k : Nat} (hk : k < 4) :
    (d.extractLsb' (32 * o) 32).extractLsb' (8 * k) 8 = lane d (4 * o + k) := by
  refine BitVec.eq_of_getLsbD_eq fun i hi => ?_
  have hbit : 32 * o + (8 * k + i) = 8 * (4 * o + k) + i := by omega
  simp [lane, hi, hbit, show 8 * k + i < 32 by omega]

theorem lane_of_field {d : Lanes} (o : Nat) {v : Word} (hv : d.extractLsb' (32 * o) 32 = v) {k : Nat} (hk : k < 4) :
    lane d (4 * o + k) = v.extractLsb' (8 * k) 8 := by
  rw [← hv, extractLsb'_field_byte d o hk]

/-! ## Fields of a packet -/

/-- A field is its four bytes, the least significant at the lowest offset (R75). -/
theorem extractLsb'_bytes_append (v : Word) :
    v.extractLsb' 24 8 ++ v.extractLsb' 16 8 ++ v.extractLsb' 8 8 ++ v.extractLsb' 0 8 = v := by
  rw [BitVec.extractLsb'_append_extractLsb'_eq_extractLsb', BitVec.extractLsb'_append_extractLsb'_eq_extractLsb',
    BitVec.extractLsb'_append_extractLsb'_eq_extractLsb']
  · exact BitVec.extractLsb'_eq_self
  all_goals rfl

/-- A field written into a packet is read back at its offset (R141, R142). -/
theorem get32le_put32le (pre : List Byte) (v : Word) (post : List Byte) :
    get32le (pre ++ put32le v ++ post) pre.length = v := by
  simpa [get32le, seqByte, put32le] using extractLsb'_bytes_append v

/-- Byte `k` of the field at offset `o` is the packet's byte `o + k` (R142). -/
theorem extractLsb'_get32le (p : List Byte) (o : Nat) {k : Nat} (hk : k < 4) :
    (get32le p o).extractLsb' (8 * k) 8 = seqByte p (o + k) := by
  unfold get32le
  interval_cases k
  · exact BitVec.extractLsb'_append_eq_right
  · refine (BitVec.extractLsb'_append_eq_of_le (w := 8) (by decide)).trans ?_
    exact BitVec.extractLsb'_append_eq_right
  · iterate 2 refine (BitVec.extractLsb'_append_eq_of_le (w := 8) (by decide)).trans ?_
    exact BitVec.extractLsb'_append_eq_right
  · iterate 2 refine (BitVec.extractLsb'_append_eq_of_le (w := 8) (by decide)).trans ?_
    exact BitVec.extractLsb'_append_eq_left

/-- The five fields stand on the port where `PKT_ENCODE` takes its operands from (R68, R69). -/
theorem decodePktEncode_packetFields (p : List Byte) : decodePktEncode (packetFields p) =
    .pktEncode (get32le p 0) (get32le p 4) (get32le p 8) (get32le p 12) (get32le p 16) :=
  decodePktEncode_append _ _ _ _ _

/-- Field `o` of a packet is read from offset `4 * o` (R69, R75). -/
theorem extractLsb'_packetFields (p : List Byte) {o : Nat} (ho : o < 5) :
    (packetFields p).extractLsb' (32 * o) 32 = get32le p (4 * o) := by
  obtain ⟨hpower, hcons, hgen, hbatt, hcounter⟩ := Instr.pktEncode.inj (decodePktEncode_packetFields p)
  interval_cases o
  exacts [hpower, hcons, hgen, hbatt, hcounter]

theorem lane_packetFields (p : List Byte) {k : Nat} (hk : k < 20) : lane (packetFields p) k = seqByte p k := by
  rw [← Nat.div_add_mod k 4, ← extractLsb'_field_byte _ _ (by omega), extractLsb'_packetFields p (by omega),
    extractLsb'_get32le p _ (by omega)]

/-- The fields of twenty bytes on `rsp_data` are those bytes on the lanes (R67, R142). -/
theorem packetFields_eq_ofLanes {p : List Byte} (hp : p.length = 20) : packetFields p = ofLanes p :=
  lanes_ext fun k hk => by rw [lane_packetFields p hk, lane_ofLanes hp.le]

/-- Decoding the bytes of five fields gives the port that presents the fields as operands (R68, R144). -/
theorem packetFields_packetBytes (power cons gen batt counter : Word) :
    packetFields (packetBytes power cons gen batt counter) = counter ++ batt ++ gen ++ cons ++ power := by
  have hpower : get32le (packetBytes power cons gen batt counter) 0 = power :=
    get32le_put32le [] power (put32le cons ++ put32le gen ++ put32le batt ++ put32le counter)
  have hcons : get32le (packetBytes power cons gen batt counter) 4 = cons :=
    get32le_put32le (put32le power) cons (put32le gen ++ put32le batt ++ put32le counter)
  have hgen : get32le (packetBytes power cons gen batt counter) 8 = gen :=
    get32le_put32le (put32le power ++ put32le cons) gen (put32le batt ++ put32le counter)
  have hbatt : get32le (packetBytes power cons gen batt counter) 12 = batt :=
    get32le_put32le (put32le power ++ put32le cons ++ put32le gen) batt (put32le counter)
  have hcounter : get32le (packetBytes power cons gen batt counter) 16 = counter :=
    get32le_put32le (put32le power ++ put32le cons ++ put32le gen ++ put32le batt) counter []
  rw [packetFields, hpower, hcons, hgen, hbatt, hcounter]

/-- The bytes of five fields stand on `rsp_data` as the fields on `cmd_data` (R68, R141). -/
theorem ofLanes_packetBytes (power cons gen batt counter : Word) :
    ofLanes (packetBytes power cons gen batt counter) = counter ++ batt ++ gen ++ cons ++ power :=
  (packetFields_eq_ofLanes rfl).symm.trans (packetFields_packetBytes ..)

/-! ## The two commands -/

/-- `PKT_ENCODE` answers its own operand port (R141). -/
theorem exec_pktEncode (power cons gen batt counter : Word) (s : State) :
    exec (.pktEncode power cons gen batt counter) s =
      .next (s.answerOk 0 (counter ++ batt ++ gen ++ cons ++ power)) :=
  congrArg (fun d => Host.Outcome.next (s.answerOk 0 d)) (ofLanes_packetBytes ..)

/-- `PKT_DECODE` of twenty bytes answers the bytes on the lanes (R142). -/
theorem exec_pktDecode_twenty {p : List Byte} (hp : p.length = 20) (s : State) :
    exec (.pktDecode 20 p) s = .next (s.answerOk 0 (ofLanes p)) :=
  congrArg (fun d => Host.Outcome.next (s.answerOk 0 d)) (packetFields_eq_ofLanes hp)

theorem exec_pktDecode_mismatch {n : Byte} (hn : n ≠ 20) (p : List Byte) (s : State) :
    exec (.pktDecode n p) s = .next (raise s .lengthMismatch) :=
  if_neg fun h => hn (BitVec.eq_of_toNat_eq h)

/-- Settles O42: the twenty bytes are the operand port, whose lanes are the bytes of its fields. -/
theorem pktEncodeWritesLittleEndianFields : Obligations.PktEncodeWritesLittleEndianFields := by
  intro power cons gen batt counter s
  refine ⟨_, exec_pktEncode power cons gen batt counter s, rfl, fun k hk => ?_⟩
  obtain ⟨hpower, hcons, hgen, hbatt, hcounter⟩ :=
    Instr.pktEncode.inj (decodePktEncode_append power cons gen batt counter)
  refine ⟨?_, lane_of_field 1 hcons hk, lane_of_field 2 hgen hk, lane_of_field 3 hbatt hk, lane_of_field 4 hcounter hk⟩
  simpa using lane_of_field 0 hpower hk

/-- Settles O43: byte `k` of field `o` is lane `4 * o + k`, and the lanes are the packet's bytes. -/
theorem pktDecodeReadsLittleEndianFields : Obligations.PktDecodeReadsLittleEndianFields := by
  intro p s hwf
  have hp : p.length = 20 := beq_iff_eq.mp hwf
  refine ⟨_, exec_pktDecode_twenty hp s, fun o ho k hk => ?_⟩
  have hoff : 4 * o + k < p.length := by omega
  rw [extractLsb'_field_byte _ o hk, lane_ofLanes hp.le]
  simp [seqByte, hoff]

/-- Settles O44: the length test fails before any byte is looked at (R198). -/
theorem pktDecodeReportsLengthMismatch : Obligations.PktDecodeReportsLengthMismatch :=
  fun _ p s hn => ⟨exec_pktDecode_mismatch hn p s, rfl, rfl, rfl⟩

/-- Settles O45: the answer to `PKT_ENCODE` has its operands at the fields of `rsp_data`, and the answer to `PKT_DECODE`, taken as
operands, is the same port again. -/
theorem packetRoundTrip : Obligations.PacketRoundTrip := by
  refine ⟨fun power cons gen batt counter s => ?_, fun p s hp => ?_⟩
  · refine ⟨_, _, exec_pktEncode power cons gen batt counter s, exec_pktDecode_twenty (lanes_length _ 20) s, ?_⟩
    rw [ofLanes_lanes]
    exact Instr.pktEncode.inj (decodePktEncode_append power cons gen batt counter)
  · refine ⟨_, _, exec_pktDecode_twenty hp s, exec_pktEncode _ _ _ _ _ s, ?_⟩
    calc lanes (decodePktEncode (ofLanes p)).dataPort 20
      _ = lanes (ofLanes p) p.length := by rw [dataPort_decodePktEncode, hp]
      _ = p := lanes_ofLanes hp.le

end Sys2Proof.Machine
end

section

/-! The sequence gap tracker (43_sequence_gap_tracker.md R160 to R169): one equation for `SEQ_OBSERVE` in terms of its gap, from
which each of its cases follows, and the count along an increasing sequence of counters. -/

namespace Sys2Proof.Machine

/-! ## The saturating count -/

theorem sat32_toNat (z : Nat) : (sat32 z).toNat = min z 0xFFFFFFFF := by
  rw [sat32, BitVec.toNat_ofNat, Nat.mod_eq_of_lt]
  omega

@[simp] theorem missedAfter_zero (s : State) : missedAfter s 0 = s.missedCount := rfl

/-- The sum saturates for every gap: a count that is left as it is was in range already (R166). -/
theorem missedAfter_toNat (s : State) (gap : Nat) :
    (missedAfter s gap).toNat = min (s.missedCount.toNat + gap) 0xFFFFFFFF := by
  obtain rfl | hgap := Nat.eq_zero_or_pos gap
  · have := s.missedCount.isLt
    rw [missedAfter_zero]
    omega
  · rw [missedAfter, if_neg hgap.ne', sat32_toNat]

/-! ## The gap of an observation -/

theorem observedGap_of_unseen {s : State} (h : s.seenAny = false) (c : Word) : observedGap s c = 0 := by
  simp [observedGap, h]

/-- The truncated difference is 0 exactly where no counter was skipped (R163, R164). -/
theorem observedGap_of_seen {s : State} (h : s.seenAny = true) (c : Word) :
    observedGap s c = c.toNat - (s.lastCounter.toNat + 1) := by
  rw [observedGap, h, Bool.true_and]
  simp only [decide_eq_true_eq]
  split <;> omega

/-- A gap fits its 32 bits of `rsp_data`, so it is reported unclipped (R168). -/
theorem observedGap_lt (s : State) (c : Word) : observedGap s c < 2 ^ 32 := by
  have := c.isLt
  unfold observedGap
  split <;> omega

/-- The two fields of the response as one number (R69). -/
theorem gapResult_ofNat {gap : Nat} (h : gap < 2 ^ 32) (missed : Word) :
    gapResult (BitVec.ofNat 32 gap) missed = BitVec.ofNat 160 (gap + 2 ^ 32 * missed.toNat) := by
  apply BitVec.eq_of_toNat_eq
  rw [gapResult, BitVec.toNat_setWidth, BitVec.toNat_ofNat, BitVec.toNat_append, BitVec.toNat_ofNat,
    Nat.mod_eq_of_lt h, ← Nat.shiftLeft_add_eq_or_of_lt h, Nat.shiftLeft_eq, Nat.mul_comm, Nat.add_comm]

/-! ## The two commands -/

/-- `SEQ_OBSERVE` for whatever its gap is (R161, R168). -/
theorem exec_seqObserve {c : Word} {s : State} {gap : Nat} (h : observedGap s c = gap) :
    exec (.seqObserve c) s = .next { s with
      lastCounter := c, missedCount := missedAfter s gap, seenAny := true
      rsp := some (.ok (firstFlag (!s.seenAny)) (BitVec.ofNat 160 (gap + 2 ^ 32 * (missedAfter s gap).toNat))) } := by
  rw [← h, ← gapResult_ofNat (observedGap_lt s c)]
  rfl

/-- `SEQ_OBSERVE` once a counter was seen (R163, R164). -/
theorem exec_seqObserve_of_seen {s : State} (hseen : s.seenAny = true) {c : Word} {gap : Nat}
    (hgap : c.toNat - (s.lastCounter.toNat + 1) = gap) :
    exec (.seqObserve c) s = .next { s with
      lastCounter := c, missedCount := missedAfter s gap
      rsp := some (.ok 0 (BitVec.ofNat 160 (gap + 2 ^ 32 * (missedAfter s gap).toNat))) } := by
  rw [exec_seqObserve ((observedGap_of_seen hseen c).trans hgap), hseen]
  rfl

/-- Settles O46: the gap of a first observation is 0. -/
theorem firstObservationCountsNoGap : Obligations.FirstObservationCountsNoGap := by
  intro c s hunseen
  rw [exec_seqObserve (observedGap_of_unseen hunseen c), hunseen, missedAfter_zero, Nat.zero_add]
  rfl

/-- Settles O47: the new count is the saturating sum. -/
theorem skippedCountersAreAGap : Obligations.SkippedCountersAreAGap :=
  fun _ s hseen _ => ⟨_, missedAfter_toNat s _, exec_seqObserve_of_seen hseen rfl⟩

/-- Settles O48: the difference from the expected counter is 0, and no counter is beyond `0xFFFFFFFF`. -/
theorem noSkippedCounterIsNoGap : Obligations.NoSkippedCounterIsNoGap := by
  intro c s hseen hc
  have hgap : c.toNat - (s.lastCounter.toNat + 1) = 0 := by
    obtain hle | hlast := hc
    · omega
    · have htop : s.lastCounter.toNat = 0xFFFFFFFF := congrArg BitVec.toNat hlast
      have := c.isLt
      omega
  rw [exec_seqObserve_of_seen hseen hgap, missedAfter_zero, Nat.zero_add]

/-- Settles O49: the command writes constants. -/
theorem seqResetMakesAFreshTracker : Obligations.SeqResetMakesAFreshTracker := fun _ => rfl

/-! ## Increasing sequences of counters -/

/-- What an observation does to the tracker, whatever was seen before (R161, R166). -/
theorem exec_seqObserve_tracker (c : Word) (s : State) :
    ∃ t, exec (.seqObserve c) s = .next t ∧ t.seenAny = true ∧ t.lastCounter = c ∧
      t.missedCount.toNat = min (s.missedCount.toNat + observedGap s c) 0xFFFFFFFF :=
  ⟨_, rfl, rfl, rfl, missedAfter_toNat s _⟩

/-- From a tracker that holds the first counter, an increasing sequence adds to the count the counters of its span that were not
observed (R166, R169 (d)). The span has room for the observed ones, so their number is subtracted without truncation. -/
theorem execAll_seqObserve_of_increasing (cs : List Word) (s : State) (hseen : s.seenAny = true)
    (hinc : (s.lastCounter :: cs).Pairwise fun a b => a.toNat < b.toNat) :
    ∃ t, execAll (cs.map .seqObserve) s = .next t ∧ t.seenAny = true ∧
      t.lastCounter = (s.lastCounter :: cs).getLast (List.cons_ne_nil _ _) ∧
      s.lastCounter.toNat + cs.length ≤ t.lastCounter.toNat ∧
      t.missedCount.toNat =
        min (s.missedCount.toNat + ((t.lastCounter.toNat - s.lastCounter.toNat) - cs.length)) 0xFFFFFFFF := by
  induction cs generalizing s with
  | nil =>
    have := s.missedCount.isLt
    exact ⟨s, rfl, hseen, rfl, le_rfl, by simp only [List.length_nil]; omega⟩
  | cons c cs ih =>
    obtain ⟨u, hexec, huseen, rfl, hu⟩ := exec_seqObserve_tracker c s
    obtain ⟨hlt, hinc'⟩ := List.pairwise_cons.mp hinc
    have hstep : s.lastCounter.toNat < u.lastCounter.toNat := hlt _ List.mem_cons_self
    rw [observedGap_of_seen hseen] at hu
    obtain ⟨t, hall, htseen, hlast, hspan, ht⟩ := ih u huseen hinc'
    refine ⟨t, (execAll_cons_next _ _ _ _ hexec).trans hall, htseen, hlast, ?_, ?_⟩ <;> rw [List.length_cons] <;> omega

/-- Settles O50: the first observation counts nothing, the others as `execAll_seqObserve_of_increasing` says. -/
theorem increasingCountersCountTheMissing : Obligations.IncreasingCountersCountTheMissing := by
  intro s c cs hunseen hinc
  obtain ⟨t, hexec, hseen, rfl, ht⟩ := exec_seqObserve_tracker c s
  rw [observedGap_of_unseen hunseen] at ht
  obtain ⟨u, hall, huseen, hlast, -, hu⟩ := execAll_seqObserve_of_increasing cs t hseen hinc
  refine ⟨u, (execAll_cons_next _ _ _ _ hexec).trans hall, huseen, hlast, ?_⟩
  omega

end Sys2Proof.Machine
end

section

/-! The system commands (44_system_commands.md R180); the reserved opcodes of R181 are settled with the exceptions. -/

namespace Sys2Proof.Machine

/-- Settles O53: `NOP` is nothing but the answer `OK` with constant result bits, and an answer writes the response alone. -/
theorem nopOnlyAnswersOk : Obligations.NopOnlyAnswersOk := fun _ => rfl

end Sys2Proof.Machine
end

section

/-! The failure statuses (60_exceptions.md R190 to R195): a command that fails has raised its own status and has written nothing,
and no other command fails. -/

namespace Sys2Proof.Machine

/-- The opcodes of the commands that R191 lists for a status. -/
def FailStatus.raisingOpcodes : FailStatus → List (BitVec 4)
  | .lengthMismatch => [0x8]
  | .decLenInvalid => [0x4, 0x5, 0x6]
  | .illegalCmd => [0xB, 0xC, 0xD, 0xE, 0xF]

/-- The opcodes of `ILLEGAL_CMD` are the ones from `0xB` on (R195). -/
theorem mem_raisingOpcodes_illegalCmd_iff (op : BitVec 4) :
    op ∈ FailStatus.illegalCmd.raisingOpcodes ↔ 0xB ≤ op.toNat := by
  revert op
  decide

/-- The opcodes from `0xB` on are those of the five reserved commands (R63, R181). -/
theorem mem_reserved_of_opcode {i : Instr} (h : 0xB ≤ i.opcode.toNat) :
    i ∈ ([.reservedB, .reservedC, .reservedD, .reservedE, .reservedF] : List Instr) := by
  cases i
  case reservedB | reservedC | reservedD | reservedE | reservedF => decide
  all_goals exact absurd h (by simp [Instr.opcode])

/-! ## Responses that are failures -/

/-- The three codes are distinct, and none is that of `OK` (R65). -/
theorem status_eq_code_iff (r : Response) (st : FailStatus) : r.status = st.code ↔ r = .fail st := by
  cases r with
  | ok f d => cases st <;> simp [Response.status, FailStatus.code]
  | fail st' => cases st' <;> cases st <;> decide

theorem exists_fail_of_status_ne_zero {r : Response} (h : r.status ≠ 0) : ∃ st, r = .fail st := by
  cases r with
  | ok f d => exact absurd rfl h
  | fail st => exact ⟨st, rfl⟩

theorem rsp_ne_fail_of_ok {t : State} {f : BitVec 2} {d : Lanes} (h : t.rsp = some (.ok f d)) (st : FailStatus) :
    t.rsp ≠ some (.fail st) := by
  simp [h]

/-! ## Which command fails, and how -/

/-- The only failure of a decode is a value byte count above 4 (R194). -/
theorem eq_decLenInvalid_of_decodeField_error {id m : List Byte} {sg : Bool} {scale : Word → Int → Word}
    {st : FailStatus} (h : decodeField id sg scale m = .error st) : st = .decLenInvalid := by
  cases hfind : find m id with
  | none =>
    rw [decodeField_of_find_none hfind] at h
    cases h
  | some i =>
    rw [decodeField_of_find_some hfind] at h
    by_cases hlong : 4 < vlen m i
    · rw [decodeFound_long hlong] at h
      exact (Except.error.inj h).symm
    · rw [decodeFound_short (Nat.le_of_not_lt hlong)] at h
      cases h

theorem decodeCommand_fail {id : List Byte} {sg : Bool} {scale : Word → Int → Word} {s t : State} {st : FailStatus}
    (h : decodeCommand id sg scale s = .next t) (hr : t.rsp = some (.fail st)) :
    t = raise s st ∧ st = .decLenInvalid := by
  obtain ⟨-, rfl⟩ := decodeCommand_next id sg scale s t h
  cases hd : decodeField id sg scale s.messageBytes with
  | ok v =>
    rw [hd] at hr
    exact absurd hr (rsp_ne_fail_of_ok rfl st)
  | error st' =>
    rw [hd] at hr
    obtain rfl : st' = st := Response.fail.inj (Option.some.inj hr)
    exact ⟨rfl, eq_decLenInvalid_of_decodeField_error hd⟩

theorem execPktDecode_fail {n : Byte} {p : List Byte} {s t : State} {st : FailStatus}
    (h : execPktDecode n p s = .next t) (hr : t.rsp = some (.fail st)) :
    t = raise s st ∧ st = .lengthMismatch := by
  by_cases hn : n.toNat = Config.pktLen
  · obtain rfl := Host.Outcome.next.inj ((if_pos hn).symm.trans h)
    exact absurd hr (rsp_ne_fail_of_ok rfl st)
  · obtain rfl := Host.Outcome.next.inj ((if_neg hn).symm.trans h)
    obtain rfl : .lengthMismatch = st := Response.fail.inj (Option.some.inj hr)
    exact ⟨rfl, rfl⟩

theorem execFaFeed_ne_fail {b : Byte} {s t : State} (h : execFaFeed b s = .next t) (st : FailStatus) :
    t.rsp ≠ some (.fail st) := by
  obtain hnone | ⟨f, n, hsome, -⟩ := execFaFeed_response b s t h
  · exact rsp_ne_fail_of_ok hnone st
  · exact rsp_ne_fail_of_ok hsome st

/-- A command that answers a failure has done nothing but raise it, and is one of the commands that R191 lists for it
(R191, R192). -/
theorem exec_fail {i : Instr} {s t : State} {st : FailStatus} (h : exec i s = .next t)
    (hr : t.rsp = some (.fail st)) : t = raise s st ∧ i.opcode ∈ st.raisingOpcodes := by
  cases i
  case faFeed b => exact absurd hr (execFaFeed_ne_fail h st)
  case faRead a =>
    obtain rfl := Host.Outcome.next.inj ((execFaRead_eq a s).symm.trans h)
    exact absurd hr (rsp_ne_fail_of_ok rfl st)
  case decPower | decCons | decGen =>
    obtain ⟨ht, rfl⟩ := decodeCommand_fail h hr
    exact ⟨ht, by decide⟩
  case pktDecode n p =>
    obtain ⟨ht, rfl⟩ := execPktDecode_fail h hr
    exact ⟨ht, List.mem_singleton_self _⟩
  case reservedB | reservedC | reservedD | reservedE | reservedF =>
    obtain rfl := Host.Outcome.next.inj h
    obtain rfl : .illegalCmd = st := Response.fail.inj (Option.some.inj hr)
    exact ⟨rfl, by decide⟩
  case nop | faReset | pktEncode | seqObserve | seqReset =>
    obtain rfl := Host.Outcome.next.inj h
    exact absurd hr (rsp_ne_fail_of_ok rfl st)

/-- Settles O18: a failure is a `raise`, which writes the response alone, and no command reads that (R28, R192). -/
theorem failedCommandWritesNothing : Obligations.FailedCommandWritesNothing := by
  intro i s t r h hr hstatus
  obtain ⟨st, rfl⟩ := exists_fail_of_status_ne_zero hstatus
  obtain ⟨rfl, -⟩ := exec_fail h hr
  exact ⟨rfl, rfl, rfl, fun j => noCommandReadsAnEarlierResponse j s _⟩

/-- Settles O19: a failure comes from a command that R191 lists for it, and a reserved opcode always fails. -/
theorem statusesAreRaisedByTheirCommandsOnly : Obligations.StatusesAreRaisedByTheirCommandsOnly := by
  intro i s t r h hr
  have hraised (st : FailStatus) (hst : r.status = st.code) : i.opcode ∈ st.raisingOpcodes := by
    obtain rfl := (status_eq_code_iff r st).mp hst
    obtain ⟨-, hop⟩ := exec_fail h hr
    exact hop
  refine ⟨fun h1 => ?_, fun h2 => ?_, fun h3 => ?_, fun hop => ?_⟩
  · exact List.mem_singleton.mp (hraised .lengthMismatch h1)
  · simpa [FailStatus.raisingOpcodes] using hraised .decLenInvalid h2
  · exact (mem_raisingOpcodes_illegalCmd_iff _).mp (hraised .illegalCmd h3)
  · obtain ⟨hillegal, -⟩ := reservedOpcodesAnswerIllegalCmd
    obtain rfl := Host.Outcome.next.inj ((hillegal i s (mem_reserved_of_opcode hop)).symm.trans h)
    obtain rfl := Option.some.inj hr
    rfl

end Sys2Proof.Machine
end

section

/-! Reset (70_reset_and_hazards.md R220, R221): the ports while `rst = 1`, and the state that such an edge leaves. -/

namespace Sys2Proof.Machine

/-! ## The ports under `rst`, and after it -/

theorem cmdReady_of_rst (s : State) {p : PortIn} (h : p.rst = true) : s.cmdReady p = false := by
  simp [State.cmdReady, h]

theorem rspValid_of_rst (s : State) {p : PortIn} (h : p.rst = true) : s.rspValid p = false := by
  simp [State.rspValid, State.rspPort, h]

theorem cmdReady_of_rsp_eq_none {s : State} {p : PortIn} (hrsp : s.rsp = none) (h : p.rst = false) :
    s.cmdReady p = true := by
  simp [State.cmdReady, hrsp, h]

/-- Settles O12: the reset state's buffer lists no byte. -/
theorem resetStateHoldsTheSpecValues : Obligations.ResetStateHoldsTheSpecValues :=
  ⟨rfl, rfl, rfl, rfl, rfl, lookup_nil⟩

/-- Settles O11: the edge takes the reset state, which has no response in flight that could keep `cmd_ready` low. -/
theorem resetEdgeLeavesTheResetState : Obligations.ResetEdgeLeavesTheResetState := by
  intro s p rest hedges hrst
  have hport := portIn_of_edges_cons hedges
  have hstep : step s = .next s.sampled.takeReset := step_reset s (hport ▸ hrst)
  have hrest : s.sampled.takeReset.edges = rest := by simp [hedges]
  exact ⟨cmdReady_of_rst s hrst, rspValid_of_rst s hrst, _, hstep, takeReset_idx _, takeReset_msgLen _,
    takeReset_seenAny _, takeReset_missedCount _, takeReset_lastCounter _, lookup_nil, takeReset_rsp _,
    takeReset_wait _, hrest, fun _ hq => cmdReady_of_rsp_eq_none (takeReset_rsp _) hq⟩

end Sys2Proof.Machine
end
